-- ==== Sys2Proof/Word.lean ====
section
/-! DEFINITION. The widths of the hardware's values: register byte, 16-bit word, operand fields
(00_scope.md R6 to R8, 30_encoding.md R71). All values are unsigned. -/
namespace Sys2Proof

/-- A general register or one cell of `M`: 8 bits (R6 `XLEN`, R50). -/
abbrev Byte := BitVec 8

/-- `pc`, `I`, a return address, an instruction word: 16 bits (R6 `PC_BITS`, `I_BITS`, `ILEN`). -/
abbrev Word := BitVec 16

/-- A 4-bit field of the instruction word (R71). -/
abbrev Nibble := BitVec 4

/-- The number of a general register, the 4-bit `X` or `Y` field (R21): never out of range. -/
abbrev Reg := Nibble

/-- The 12-bit address operand `NNN` (R71). -/
abbrev Addr := BitVec 12

end Sys2Proof
end

