-- ==== Sys2Proof/Syntax.lean ====
section
/-! DEFINITION. The instruction set: one constructor per row of spec/opcode_table.json, in its order
(30_encoding.md R76). Operands are the fields the row uses (R71, R73). -/
namespace Sys2Proof

/-- The 29 instructions of 30_encoding.md R76. -/
inductive Instr where
  /-- `clear-screen`, `00E0`. -/
  | clearScreen
  /-- `return`, `00EE`. -/
  | ret
  /-- `jump addr`, `1NNN`. -/
  | jump (nnn : Addr)
  /-- `call addr`, `2NNN`. -/
  | call (nnn : Addr)
  /-- `skip-eq-imm X, byte`, `3XNN`. -/
  | skipEqImm (x : Reg) (nn : Byte)
  /-- `skip-neq-imm X, byte`, `4XNN`. -/
  | skipNeqImm (x : Reg) (nn : Byte)
  /-- `set-imm X, byte`, `6XNN`. -/
  | setImm (x : Reg) (nn : Byte)
  /-- `add-imm X, byte`, `7XNN`. -/
  | addImm (x : Reg) (nn : Byte)
  /-- `reg-assign X, Y`, `8XY0`. -/
  | regAssign (x y : Reg)
  /-- `reg-and X, Y`, `8XY2`. -/
  | regAnd (x y : Reg)
  /-- `reg-xor X, Y`, `8XY3`. -/
  | regXor (x y : Reg)
  /-- `reg-add X, Y`, `8XY4`. -/
  | regAdd (x y : Reg)
  /-- `reg-sub X, Y`, `8XY5`. -/
  | regSub (x y : Reg)
  /-- `reg-shr X`, `8XY6`; every value of `Y` is the same instruction (R77). -/
  | regShr (x : Reg)
  /-- `reg-subn X, Y`, `8XY7`. -/
  | regSubn (x y : Reg)
  /-- `reg-shl X`, `8XYE`; every value of `Y` is the same instruction (R77). -/
  | regShl (x : Reg)
  /-- `set-index addr`, `ANNN`. -/
  | setIndex (nnn : Addr)
  /-- `draw X, Y, n`, `DXYN`. -/
  | draw (x y : Reg) (n : Nibble)
  /-- `skip-key-eq X`, `EX9E`. -/
  | skipKeyEq (x : Reg)
  /-- `skip-key-neq X`, `EXA1`. -/
  | skipKeyNeq (x : Reg)
  /-- `get-timer X`, `FX07`. -/
  | getTimer (x : Reg)
  /-- `wait-key X`, `FX0A`. -/
  | waitKey (x : Reg)
  /-- `set-timer X`, `FX15`. -/
  | setTimer (x : Reg)
  /-- `set-sound-timer X`, `FX18`. -/
  | setSoundTimer (x : Reg)
  /-- `add-index X`, `FX1E`. -/
  | addIndex (x : Reg)
  /-- `font-char-addr X`, `FX29`. -/
  | fontCharAddr (x : Reg)
  /-- `store-bcd X`, `FX33`. -/
  | storeBcd (x : Reg)
  /-- `store-block X`, `FX55`. -/
  | storeBlock (x : Reg)
  /-- `load-block X`, `FX65`. -/
  | loadBlock (x : Reg)
  deriving DecidableEq, Repr

end Sys2Proof
end

