-- ==== Sys2Proof/Decode.lean ====
section
/-! DEFINITION. The decoder and the encoder (30_encoding.md R70 to R77). The opcode numbers stand in one
replaceable table, `opcodeTable` (R74); they are the spec's D6. PRESUMED (the spec takes the numbers from
general knowledge); unsafe (log entry 2). -/
namespace Sys2Proof

/-! ### The fields of the instruction word (R71) -/

/-- `class = w[15:12]`. -/
def fieldClass (w : Word) : Nibble := w.extractLsb' 12 4
/-- `X = w[11:8]`. -/
def fieldX (w : Word) : Reg := w.extractLsb' 8 4
/-- `Y = w[7:4]`. -/
def fieldY (w : Word) : Reg := w.extractLsb' 4 4
/-- `N = w[3:0]`. -/
def fieldN (w : Word) : Nibble := w.extractLsb' 0 4
/-- `NN = w[7:0]`. -/
def fieldNN (w : Word) : Byte := w.extractLsb' 0 8
/-- `NNN = w[11:0]`. -/
def fieldNNN (w : Word) : Addr := w.extractLsb' 0 12

/-! ### The opcode map (R74 to R77) -/

/-- Which bits below the class select the instruction, and their value (R75, decision D7). -/
inductive SubOp where
  /-- The class alone selects (formats ADDR, XBYTE, XYN). -/
  | none
  /-- `N` selects (class 8, format XY). -/
  | n (v : Nibble)
  /-- `NN` selects (classes E and F, format X). -/
  | nn (v : Byte)
  /-- All of `w[11:0]` selects (class 0, format FIXED). -/
  | nnn (v : Addr)
  deriving DecidableEq, Repr

/-- One row of the opcode map (R76): the mnemonic, the class, the sub-opcode, and the instruction its
operand fields make. -/
structure OpRow where
  mnemonic : String
  cls      : Nibble
  sub      : SubOp
  build    : Word → Instr

/-- The sub-opcode of a word is the row's. -/
def subMatches (sub : SubOp) (w : Word) : Bool :=
  match sub with
  | .none  => true
  | .n v   => fieldN w == v
  | .nn v  => fieldNN w == v
  | .nnn v => fieldNNN w == v

/-- A word selects a row when its class and its sub-opcode are the row's (R76). -/
def rowMatches (w : Word) (r : OpRow) : Bool := fieldClass w == r.cls && subMatches r.sub w

/-- Classes 0 to 7 of the opcode map (R76 rows 1 to 8). -/
def opcodeTableLow : List OpRow :=
  [⟨"clear-screen", 0x0, .nnn 0x0E0, fun _ => .clearScreen⟩,
   ⟨"return",       0x0, .nnn 0x0EE, fun _ => .ret⟩,
   ⟨"jump",         0x1, .none, fun w => .jump (fieldNNN w)⟩,
   ⟨"call",         0x2, .none, fun w => .call (fieldNNN w)⟩,
   ⟨"skip-eq-imm",  0x3, .none, fun w => .skipEqImm (fieldX w) (fieldNN w)⟩,
   ⟨"skip-neq-imm", 0x4, .none, fun w => .skipNeqImm (fieldX w) (fieldNN w)⟩,
   ⟨"set-imm",      0x6, .none, fun w => .setImm (fieldX w) (fieldNN w)⟩,
   ⟨"add-imm",      0x7, .none, fun w => .addImm (fieldX w) (fieldNN w)⟩]

/-- Class 8 of the opcode map (R76 rows 9 to 16); the shifts ignore `Y` (R77). -/
def opcodeTableAlu : List OpRow :=
  [⟨"reg-assign", 0x8, .n 0x0, fun w => .regAssign (fieldX w) (fieldY w)⟩,
   ⟨"reg-and",    0x8, .n 0x2, fun w => .regAnd (fieldX w) (fieldY w)⟩,
   ⟨"reg-xor",    0x8, .n 0x3, fun w => .regXor (fieldX w) (fieldY w)⟩,
   ⟨"reg-add",    0x8, .n 0x4, fun w => .regAdd (fieldX w) (fieldY w)⟩,
   ⟨"reg-sub",    0x8, .n 0x5, fun w => .regSub (fieldX w) (fieldY w)⟩,
   ⟨"reg-shr",    0x8, .n 0x6, fun w => .regShr (fieldX w)⟩,
   ⟨"reg-subn",   0x8, .n 0x7, fun w => .regSubn (fieldX w) (fieldY w)⟩,
   ⟨"reg-shl",    0x8, .n 0xE, fun w => .regShl (fieldX w)⟩]

/-- Classes A, D, E and F of the opcode map (R76 rows 17 to 29). -/
def opcodeTableHigh : List OpRow :=
  [⟨"set-index",       0xA, .none, fun w => .setIndex (fieldNNN w)⟩,
   ⟨"draw",            0xD, .none, fun w => .draw (fieldX w) (fieldY w) (fieldN w)⟩,
   ⟨"skip-key-eq",     0xE, .nn 0x9E, fun w => .skipKeyEq (fieldX w)⟩,
   ⟨"skip-key-neq",    0xE, .nn 0xA1, fun w => .skipKeyNeq (fieldX w)⟩,
   ⟨"get-timer",       0xF, .nn 0x07, fun w => .getTimer (fieldX w)⟩,
   ⟨"wait-key",        0xF, .nn 0x0A, fun w => .waitKey (fieldX w)⟩,
   ⟨"set-timer",       0xF, .nn 0x15, fun w => .setTimer (fieldX w)⟩,
   ⟨"set-sound-timer", 0xF, .nn 0x18, fun w => .setSoundTimer (fieldX w)⟩,
   ⟨"add-index",       0xF, .nn 0x1E, fun w => .addIndex (fieldX w)⟩,
   ⟨"font-char-addr",  0xF, .nn 0x29, fun w => .fontCharAddr (fieldX w)⟩,
   ⟨"store-bcd",       0xF, .nn 0x33, fun w => .storeBcd (fieldX w)⟩,
   ⟨"store-block",     0xF, .nn 0x55, fun w => .storeBlock (fieldX w)⟩,
   ⟨"load-block",      0xF, .nn 0x65, fun w => .loadBlock (fieldX w)⟩]

/-- The opcode map: the 29 rows of R76 in their order. -/
def opcodeTable : List OpRow := opcodeTableLow ++ opcodeTableAlu ++ opcodeTableHigh

/-- The bits a row fixes, as the `mask` of R76. -/
def rowMask (r : OpRow) : Word :=
  match r.sub with
  | .none  => 0xF000
  | .n _   => 0xF00F
  | .nn _  => 0xF0FF
  | .nnn _ => 0xFFFF

/-- The value of the bits a row fixes, as the `match` of R76. -/
def rowCode (r : OpRow) : Word :=
  match r.sub with
  | .none  => r.cls ++ (0 : Addr)
  | .n v   => r.cls ++ (0 : Byte) ++ v
  | .nn v  => r.cls ++ (0 : Nibble) ++ v
  | .nnn v => r.cls ++ v

/-! ### The decoder (R75) -/

/-- The result of decoding a word: an instruction, or the decode fault of R75, which carries the word. -/
inductive Decoded where
  | instr (i : Instr)
  | decodeFault (w : Word)
  deriving DecidableEq, Repr

/-- `decode` of R75: total on 16-bit words, and every word no row selects is a decode fault (R78, R79). -/
def decode (w : Word) : Decoded :=
  match opcodeTable.find? (rowMatches w) with
  | some r => .instr (r.build w)
  | none   => .decodeFault w

/-- The instruction word of two bytes of memory: the first is the high half (R55). -/
def wordOfBytes (hi lo : Byte) : Word := hi ++ lo

/-- The high byte of an instruction word, stored at the lower address (R55). -/
def highByte (w : Word) : Byte := w.extractLsb' 8 8

/-- The low byte of an instruction word, stored at the higher address (R55). -/
def lowByte (w : Word) : Byte := w.extractLsb' 0 8

/-- The two bytes of an instruction word in the order they lie in memory (R55, R70). -/
def bytesOfWord (w : Word) : List Byte := [highByte w, lowByte w]

/-- Decoding from a stream of bytes: the result and the bytes after it, or `none` where fewer than the
two bytes every instruction has (R70) are left. -/
def decodeBytes (bytes : List Byte) : Option (Decoded × List Byte) :=
  match bytes with
  | hi :: lo :: rest => some (decode (wordOfBytes hi lo), rest)
  | _                => none

/-- The instruction the decoder reads from a word given as spec/opcode_table.json numbers its bits
(bit 0 the least significant of the 16): the word is laid out high byte first and decoded. -/
def decodeTableWord (nbits w : Nat) : Option Instr :=
  match decodeBytes (bytesOfWord (BitVec.ofNat 16 (w % 2 ^ nbits))) with
  | some (.instr i, _) => some i
  | _                  => none

/-! ### The encoder (R72, R76) -/

/-- Format ADDR, `cNNN`. -/
def encodeAddr (c : Nibble) (nnn : Addr) : Word := c ++ nnn
/-- Format XBYTE, `cXNN`; format X is the same with `NN` a sub-opcode. -/
def encodeXByte (c : Nibble) (x : Reg) (nn : Byte) : Word := c ++ x ++ nn
/-- Format XYN, `cXYN`; format XY is the same with `N` a sub-opcode. -/
def encodeXYN (c : Nibble) (x y : Reg) (n : Nibble) : Word := c ++ x ++ y ++ n

/-- The word of an instruction (R76); the shifts are assembled with `Y = 0` (R77). -/
def encode : Instr → Word
  | .clearScreen       => 0x00E0
  | .ret               => 0x00EE
  | .jump nnn          => encodeAddr 0x1 nnn
  | .call nnn          => encodeAddr 0x2 nnn
  | .skipEqImm x nn    => encodeXByte 0x3 x nn
  | .skipNeqImm x nn   => encodeXByte 0x4 x nn
  | .setImm x nn       => encodeXByte 0x6 x nn
  | .addImm x nn       => encodeXByte 0x7 x nn
  | .regAssign x y     => encodeXYN 0x8 x y 0x0
  | .regAnd x y        => encodeXYN 0x8 x y 0x2
  | .regXor x y        => encodeXYN 0x8 x y 0x3
  | .regAdd x y        => encodeXYN 0x8 x y 0x4
  | .regSub x y        => encodeXYN 0x8 x y 0x5
  | .regShr x          => encodeXYN 0x8 x 0x0 0x6
  | .regSubn x y       => encodeXYN 0x8 x y 0x7
  | .regShl x          => encodeXYN 0x8 x 0x0 0xE
  | .setIndex nnn      => encodeAddr 0xA nnn
  | .draw x y n        => encodeXYN 0xD x y n
  | .skipKeyEq x       => encodeXByte 0xE x 0x9E
  | .skipKeyNeq x      => encodeXByte 0xE x 0xA1
  | .getTimer x        => encodeXByte 0xF x 0x07
  | .waitKey x         => encodeXByte 0xF x 0x0A
  | .setTimer x        => encodeXByte 0xF x 0x15
  | .setSoundTimer x   => encodeXByte 0xF x 0x18
  | .addIndex x        => encodeXByte 0xF x 0x1E
  | .fontCharAddr x    => encodeXByte 0xF x 0x29
  | .storeBcd x        => encodeXByte 0xF x 0x33
  | .storeBlock x      => encodeXByte 0xF x 0x55
  | .loadBlock x       => encodeXByte 0xF x 0x65

/-- The bytes of an instruction as they lie in memory. -/
def encodeBytes (i : Instr) : List Byte := bytesOfWord (encode i)

end Sys2Proof
end

