-- ==== Sys2Proof/Config.lean ====
section
/-! DEFINITION. The parameters of 00_scope.md R6 as a configuration argument (`Params`), the spec's default
configuration (`Config.params`, log entry 1), and the one free value, `KEY_SELECT` (log entry 6). -/
namespace Sys2Proof

/-- `MEM_SIZE`: 4096 bytes, valid addresses `0x000` to `0xFFF` (R6, R50). The spec fixes it: it is no
parameter. -/
abbrev Config.memSize : Nat := 4096

/-- A configuration: the parameters R6 leaves open (decisions D2 to D5). A machine has one, and nothing
the machine does changes it. The constraints on it are `Params.wellFormed` (WellFormed.lean). -/
structure Params where
  /-- `ORIGIN`: the load origin and the reset value of `pc`. -/
  origin     : Nat
  /-- `DISPLAY_W`. -/
  displayW   : Nat
  /-- `DISPLAY_H`. -/
  displayH   : Nat
  /-- `STACK_DEPTH`. -/
  stackDepth : Nat
  /-- `FONT`: the bytes of the glyph table, glyph `d` at offset `d * 5` (R57). -/
  font       : List Byte
  deriving DecidableEq, Repr

/-- The default `FONT`: glyphs 0 to 7, five rows each, at addresses 0 to 39 (R57). -/
def Config.fontLow : List Byte :=
  [0xF0, 0x90, 0x90, 0x90, 0xF0,  0x20, 0x60, 0x20, 0x20, 0x70,
   0xF0, 0x10, 0xF0, 0x80, 0xF0,  0xF0, 0x10, 0xF0, 0x10, 0xF0,
   0x90, 0x90, 0xF0, 0x10, 0x10,  0xF0, 0x80, 0xF0, 0x10, 0xF0,
   0xF0, 0x80, 0xF0, 0x90, 0xF0,  0xF0, 0x10, 0x20, 0x40, 0x40]

/-- The default `FONT`: glyphs 8 to F, at addresses 40 to 79 (R57). -/
def Config.fontHigh : List Byte :=
  [0xF0, 0x90, 0xF0, 0x90, 0xF0,  0xF0, 0x90, 0xF0, 0x10, 0xF0,
   0xF0, 0x90, 0xF0, 0x90, 0x90,  0xE0, 0x90, 0xE0, 0x90, 0xE0,
   0xF0, 0x80, 0x80, 0x80, 0xF0,  0xE0, 0x90, 0x90, 0x90, 0xE0,
   0xF0, 0x80, 0xF0, 0x80, 0xF0,  0xF0, 0x80, 0xF0, 0x80, 0x80]

/-- The spec's default configuration (R6, R57).
PRESUMED: the values are the spec's D2 to D5, from general knowledge; unsafe for a theorem about this
configuration alone (log entry 1). -/
def Config.params : Params where
  origin     := 0x200
  displayW   := 64
  displayH   := 32
  stackDepth := 16
  font       := Config.fontLow ++ Config.fontHigh

/-- The free part of `KEY_SELECT` (44_keyboard.md R154, 93_implementation_defined.md U4): which of the
pressed keys `wait-key` reports when several are down, as a position among them (taken modulo their
number). It has no body, so nothing can be proved of its values; a theorem holds for every choice
function. DESIGN CHOICE, safe (log entry 6). -/
opaque Config.keySelect : BitVec 16 → Nat

end Sys2Proof
end

