-- ==== Sys2Proof/Machine/State.lean ====
section
/-! DEFINITION. The complete state of the hardware (10_state.md R20) as plain data, the record of a fault
(60_exceptions.md R190), and the state after `Reset` (10_state.md R36), for every configuration of
00_scope.md R6. -/
namespace Sys2Proof.Machine

/-! ### The fault latch (R28, R190) -/

/-- The `space` of an `OutOfBounds` fault (R190, R193). -/
inductive FaultSpace where
  /-- A memory address above `0xFFF`. -/
  | mem
  /-- A key index above 15. -/
  | key
  deriving DecidableEq, Repr

/-- The five faults of R190, each with the information it carries. -/
inductive FaultCause where
  /-- R191: the fetched word is none of the 29 instructions; `w` is the word. -/
  | decodeFault (w : Word)
  /-- R192: `return` with an empty stack. -/
  | stackUnderflow
  /-- R194: `call` with a full stack. -/
  | stackOverflow
  /-- R193: the lowest offending address, or the key index. -/
  | outOfBounds (space : FaultSpace) (info : Word)
  /-- R195: a completed instruction left `pc` at its own address. -/
  | noProgress
  deriving DecidableEq, Repr

/-- The fault record: the cause, and the address of the instruction whose `Step` faulted (R190). -/
structure FaultRecord where
  cause : FaultCause
  pc    : Word
  deriving DecidableEq, Repr

/-! ### Memory and display -/

/-- `M` (R30, R50): the bytes that differ from what an unlisted address reads as
(`Memory.background`), addresses strictly rising. -/
abbrev Memory := List Host.Cell

/-- A framebuffer of `w` columns and `h` rows of one-bit pixels; element `y` is row `y`, and element `x`
of a row is column `x` (R31). -/
abbrev Grid (w h : Nat) := Vector (Vector Bool w) h

/-! ### The state -/

/-- The state of R20, with the configuration it is a state of. `cfg` and `presents` are the model's own
fields (log entries 1 and 5); every other field is the spec's, under its name. -/
structure State where
  /-- The configuration argument (R6): constants, not state (R35, R38). No operation writes it. -/
  cfg      : Params
  /-- `V[0..15]`; `V[15]` is VF (R21, R22). -/
  v        : Vector Byte 16
  /-- `pc` (R23). -/
  pc       : Word
  /-- `I` (R25). -/
  i        : Word
  /-- `STK[0..STACK_DEPTH-1]` (R26). -/
  stk      : Vector Word cfg.stackDepth
  /-- `SP`, the number of return addresses held (R26). -/
  sp       : Fin (cfg.stackDepth + 1)
  /-- `PPC`, the address the current instruction was fetched from (R27). -/
  ppc      : Word
  /-- `FAULT`, the fault latch (R28). -/
  fault    : Option FaultRecord
  /-- `M` (R30). -/
  mem      : Memory
  /-- `D` (R31). -/
  display  : Grid cfg.displayW cfg.displayH
  /-- `K`, bit `k` is key `k`, 1 = pressed (R32, R150). -/
  keys     : BitVec 16
  /-- `DT`, the delay timer (R33). -/
  dt       : Byte
  /-- `ST`, the sound timer (R34). -/
  st       : Byte
  /-- How many `present` notifications have been emitted since reset (R148, R181). -/
  presents : Nat
  deriving DecidableEq, Repr

/-- Reasons a step can stop the machine. There is none: each of the spec's five faults is a NEXT state
with the latch set (R196, R197), so no step and no meaning answers with a fault. -/
inductive Fault
  deriving DecidableEq, Repr

/-- Reasons for having no next state. -/
inductive Refusal where
  /-- Raised by `exec` for an instruction that has no meaning yet (no arm does so now). Safe. -/
  | notModelled (mnemonic : String)
  /-- Raised by `loadImage` for an image longer than `MEM_SIZE - ORIGIN` (R177, U5): no such launch.
  No step raises it. Safe. -/
  | imageTooLong (length : Nat)
  deriving DecidableEq, Repr

/-- The state after `Reset` on configuration `p` (R36, R176): every value is R36's but those of `stk` and
`ppc`, which R36 leaves unspecified (DESIGN CHOICE zero, log entry 3), and `presents` (log entry 5). The
memory lists nothing, so every address reads as its reset contents (log entry 4). -/
def State.resetOf (p : Params) : State where
  cfg      := p
  v        := Vector.replicate 16 0
  pc       := BitVec.ofNat 16 p.origin
  i        := 0
  stk      := Vector.replicate p.stackDepth 0
  sp       := 0
  ppc      := 0
  fault    := none
  mem      := []
  display  := Vector.replicate p.displayH (Vector.replicate p.displayW false)
  keys     := 0
  dt       := 0
  st       := 0
  presents := 0

/-- The state after `Reset` on the spec's default configuration. -/
def State.reset : State := State.resetOf Config.params

end Sys2Proof.Machine
end

