-- ==== Sys2Proof/Machine/Ops.lean ====
section
/-! DEFINITION. The named operations over registers, memory, the return stack and `pc`, taking a fault,
and the phases of `Step` around an instruction's own rule (46_host_operations.md R171). -/
namespace Sys2Proof.Machine

/-! ### General registers (R21) -/

/-- `V[x]`. -/
def State.reg (s : State) (x : Reg) : Byte := s.v[x.toNat]'x.isLt

/-- `V[x] <- b`. -/
def State.setReg (x : Reg) (b : Byte) (s : State) : State :=
  { s with v := s.v.set x.toNat b x.isLt }

/-- The state with the register file `v`. -/
def State.withV (s : State) (v : Vector Byte 16) : State := { s with v := v }

/-- `V[k], V[k+1], ... <- bytes`, ascending (R135). -/
def loadRegs (v : Vector Byte 16) (k : Nat) : List Byte → Vector Byte 16
  | []      => v
  | b :: bs => loadRegs (v.setIfInBounds k b) (k + 1) bs

/-! ### `I` and the timers (R25, R33, R34) -/

/-- `I <- a`. -/
def State.withI (s : State) (a : Word) : State := { s with i := a }

/-- `DT <- b`. -/
def State.withDt (s : State) (b : Byte) : State := { s with dt := b }

/-- `ST <- b`. -/
def State.withSt (s : State) (b : Byte) : State := { s with st := b }

/-! ### Memory (R30, R50 to R54) -/

/-- The reset contents of address `a`: a font byte from 0 to 79, zero elsewhere (R36, R57). -/
def Memory.background (font : List Byte) (a : Nat) : Byte := (font[a]?).getD 0

/-- `M[a]`: the listed byte, or the reset contents. -/
def Memory.read (font : List Byte) (m : Memory) (a : Nat) : Byte :=
  match m with
  | []        => Memory.background font a
  | c :: rest => if c.1 = a then c.2 else Memory.read font rest a

/-- A cell placed before the first cell of a higher address. -/
def Memory.insert (m : Memory) (a : Nat) (b : Byte) : Memory :=
  match m with
  | []        => [(a, b)]
  | c :: rest => if a < c.1 then (a, b) :: c :: rest else c :: Memory.insert rest a b

/-- `M[a] <- b`, in the canonical form: an address that again holds its reset contents is not listed. -/
def Memory.write (font : List Byte) (m : Memory) (a : Nat) (b : Byte) : Memory :=
  let rest := m.filter fun c => c.1 != a
  if b = Memory.background font a then rest else Memory.insert rest a b

/-- The canonical form from an address `lo` on: addresses at least `lo`, rising, inside the 4096 bytes,
and no entry equal to the reset contents. -/
def Memory.wfFrom (font : List Byte) (lo : Nat) : Memory → Bool
  | []        => true
  | c :: rest =>
    lo ≤ c.1 && c.1 < Config.memSize && c.2 != Memory.background font c.1 &&
      Memory.wfFrom font (c.1 + 1) rest

/-- The canonical form of a memory. -/
def Memory.wf (font : List Byte) (m : Memory) : Bool := Memory.wfFrom font 0 m

/-- `M[base], M[base + 1], ... <- bytes`, ascending. -/
def Memory.writeBytes (font : List Byte) (m : Memory) (base : Nat) : List Byte → Memory
  | []      => m
  | b :: bs => Memory.writeBytes font (m.write font base b) (base + 1) bs

/-- `M[a]` of a state. -/
def State.byte (s : State) (a : Nat) : Byte := s.mem.read s.cfg.font a

/-- The bytes at `base`, `base + 1`, ..., ascending, `n` of them. -/
def State.bytes (s : State) (base n : Nat) : List Byte :=
  (List.range n).map fun k => s.byte (base + k)

/-- `M[base], M[base + 1], ... <- bytes` on a state, ascending. -/
def State.store (base : Nat) (bytes : List Byte) (s : State) : State :=
  { s with mem := s.mem.writeBytes s.cfg.font base bytes }

/-- `OutOfBounds(MEM, a)` (R190, R193). -/
def memFault (a : Nat) : FaultCause := .outOfBounds .mem (BitVec.ofNat 16 a)

/-- The bounds check of R51: `addr <= 0xFFF`, over the natural numbers. -/
def inMemory (a : Nat) : Bool := a < Config.memSize

/-- `MemRead(addr, 1)` (R52). -/
def memRead (s : State) (a : Nat) : Except FaultCause Byte :=
  if inMemory a then .ok (s.byte a) else .error (memFault a)

/-- `MemWrite(addr, 1, v)` (R53). -/
def memWrite (a : Nat) (b : Byte) (s : State) : Except FaultCause State :=
  if inMemory a then .ok (s.store a [b]) else .error (memFault a)

/-- The check an instruction makes of its `n` consecutive addresses from `base` before it changes
anything (R54): the fault to raise, with the lowest out-of-range address, `max(base, 0x1000)`; no
address, no fault (R143 with `N = 0`). -/
def checkSpan (base n : Nat) : Option FaultCause :=
  if n = 0 ∨ base + n ≤ Config.memSize then none
  else some (memFault (max base Config.memSize))

/-! ### The return stack (R26) -/

/-- `STK[j]`; the value for `j` at or above `STACK_DEPTH`, where there is no slot, is never used. -/
def State.slot (s : State) (j : Nat) : Word := (s.stk[j]?).getD 0

/-- The state with a return address in the slot at `SP` and `SP` one higher. -/
def State.pushed (s : State) (a : Word) (h : s.sp.val < s.cfg.stackDepth) : State :=
  { s with stk := s.stk.set s.sp.val a h, sp := ⟨s.sp.val + 1, Nat.succ_lt_succ h⟩ }

/-- The state with `SP` one lower. The vacated slot keeps its bits. -/
def State.popped (s : State) : State :=
  { s with sp := ⟨s.sp.val - 1, Nat.lt_of_le_of_lt (Nat.sub_le _ _) s.sp.isLt⟩ }

/-- Push a return address: `none` when the stack holds `STACK_DEPTH` of them (R103). -/
def pushReturn (a : Word) (s : State) : Option State :=
  if h : s.sp.val < s.cfg.stackDepth then some (s.pushed a h) else none

/-- Pop a return address: `none` when the stack is empty (R101). -/
def popReturn (s : State) : Option (Word × State) :=
  if s.sp.val = 0 then none else some (s.slot (s.sp.val - 1), s.popped)

/-! ### The program counter (R23, R24) -/

/-- `pc <- t`. -/
def jumpTo (t : Word) (s : State) : State := { s with pc := t }

/-- `pc <- trunc_16(pc + 2)`. -/
def advance (s : State) : State := { s with pc := s.pc + 2 }

/-- `pc <- trunc_16(pc + 4)` if the condition holds, else `pc <- trunc_16(pc + 2)`. -/
def skipIf (c : Bool) (s : State) : State := { s with pc := if c then s.pc + 4 else s.pc + 2 }

/-! ### Taking a fault (R196, R197) -/

/-- `raise F(info)`: the state before the instruction, with `FAULT` set to the record of the cause and
`PPC`; a record already latched stays (R197). -/
def raise (c : FaultCause) (s : State) : State :=
  match s.fault with
  | none   => { s with fault := some ⟨c, s.ppc⟩ }
  | some _ => s

/-- Emit `present` (R148, R181). -/
def emitPresent (s : State) : State := { s with presents := s.presents + 1 }

/-! ### The phases of `Step` (R171) -/

/-- Phase 1: `PPC <- pc`. -/
def beginStep (s : State) : State := { s with ppc := s.pc }

/-- Phase 2: `w <- MemRead(pc, 2)`, high byte first, the first byte checked before the second (R55). -/
def fetch (s : State) : Except FaultCause Word :=
  match memRead s s.pc.toNat with
  | .error f => .error f
  | .ok hi =>
    match memRead s (s.pc.toNat + 1) with
    | .error f => .error f
    | .ok lo => .ok (wordOfBytes hi lo)

/-- Whether an instruction is `wait-key`. -/
def isWaitKey : Instr → Bool
  | .waitKey _ => true
  | .clearScreen | .ret | .jump _ | .call _ | .skipEqImm _ _ | .skipNeqImm _ _ | .setImm _ _
  | .addImm _ _ | .regAssign _ _ | .regAnd _ _ | .regXor _ _ | .regAdd _ _ | .regSub _ _ | .regShr _
  | .regSubn _ _ | .regShl _ | .setIndex _ | .draw _ _ _ | .skipKeyEq _ | .skipKeyNeq _
  | .getTimer _ | .setTimer _ | .setSoundTimer _ | .addIndex _ | .fontCharAddr _ | .storeBcd _
  | .storeBlock _ | .loadBlock _ => false

/-- A suspended `wait-key`: `wait-key` executed while no key is pressed (R29, R153). -/
def suspended (i : Instr) (s : State) : Bool := isWaitKey i && s.keys == 0

/-- Phases 5 and 6: `before` is the state at the start of the execute phase, `after` the copy it left.
A fault the instruction raised stands (it is the first, R198); else `NoProgress` is raised on the
unchanged state when the new `pc` equals `PPC` and the instruction is no suspended `wait-key` (R195);
else the copy becomes the state. -/
def commit (i : Instr) (before after : State) : State :=
  if after.fault = none ∧ suspended i before = false ∧ after.pc = before.ppc then
    raise .noProgress before
  else after

/-- Store the two bytes of an instruction word where `pc` points, high byte first (R55), and let the
next step fetch it: no fault latched, and `pc` at `ORIGIN` where it addresses no two bytes of `M`. -/
def placeWord (w : Word) (s : State) : State :=
  let pc := if inMemory (s.pc.toNat + 1) then s.pc else BitVec.ofNat 16 s.cfg.origin
  State.store pc.toNat (bytesOfWord w) { s with pc := pc, fault := none }

end Sys2Proof.Machine
end

