-- ==== Sys2Proof/Machine/Flags.lean ====
section
/-! DEFINITION. The flag multiplexer (41_alu.md R121): what each flag-producing instruction writes to
VF, register 15 (10_state.md R22). -/
namespace Sys2Proof.Machine

/-- The register that doubles as the flag register (R22). -/
def flagReg : Reg := 15

/-- The select input of the flag multiplexer, with the values it looks at (R121). -/
inductive FlagSource where
  /-- Carry out of the 9-bit sum of two bytes (`reg-add`). -/
  | carry (a b : Byte)
  /-- `minuend >= subtrahend`, unsigned (`reg-sub`, `reg-subn`). -/
  | notBorrow (minuend subtrahend : Byte)
  /-- Bit 0 (`reg-shr`). -/
  | lowBit (v : Byte)
  /-- Bit 7 (`reg-shl`). -/
  | highBit (v : Byte)
  /-- The blit's collision result (`draw`). -/
  | collision (c : Bool)
  deriving DecidableEq, Repr

/-- `zext_9(a) + zext_9(b)` (R116). -/
def sum9 (a b : Byte) : BitVec 9 := a.setWidth 9 + b.setWidth 9

/-- The flag bit a source gives (R121). -/
def flagBit : FlagSource → Bool
  | .carry a b       => (sum9 a b).getLsbD 8
  | .notBorrow m sub => sub.toNat ≤ m.toNat
  | .lowBit v        => v.getLsbD 0
  | .highBit v       => v.getLsbD 7
  | .collision c     => c

/-- The flag bit zero-extended to 8 bits: exactly `0x00` or `0x01` (R121). -/
def flagByte (b : Bool) : Byte := if b then 0x01 else 0x00

/-- The flag write: all 8 bits of VF (R121). -/
def setFlag (f : FlagSource) (s : State) : State := s.setReg flagReg (flagByte (flagBit f))

end Sys2Proof.Machine
end

