-- ==== Sys2Proof/Machine/Alu.lean ====
section
/-! DEFINITION. Immediate and register ALU instructions (41_alu.md R110 to R123). The writes run in the
order of the instruction's rule, each seeing the ones before it (R110), which decides the outcomes when
register 15 is an operand (R122; log entry 7). -/
namespace Sys2Proof.Machine

/-- `set-imm X, byte` (R111). -/
def execSetImm (x : Reg) (nn : Byte) (s : State) : Host.Outcome State Fault Refusal :=
  .next (advance (s.setReg x nn))

/-- `add-imm X, byte` (R112): 8-bit wraparound, no flag. -/
def execAddImm (x : Reg) (nn : Byte) (s : State) : Host.Outcome State Fault Refusal :=
  .next (advance (s.setReg x (s.reg x + nn)))

/-- `reg-assign X, Y` (R113). -/
def execRegAssign (x y : Reg) (s : State) : Host.Outcome State Fault Refusal :=
  .next (advance (s.setReg x (s.reg y)))

/-- `reg-and X, Y` (R114). -/
def execRegAnd (x y : Reg) (s : State) : Host.Outcome State Fault Refusal :=
  .next (advance (s.setReg x (s.reg x &&& s.reg y)))

/-- `reg-xor X, Y` (R115). -/
def execRegXor (x y : Reg) (s : State) : Host.Outcome State Fault Refusal :=
  .next (advance (s.setReg x (s.reg x ^^^ s.reg y)))

/-- `reg-add X, Y` (R116): the low 8 bits of the 9-bit sum, then the carry. -/
def execRegAdd (x y : Reg) (s : State) : Host.Outcome State Fault Refusal :=
  let a := s.reg x
  let b := s.reg y
  .next (advance (setFlag (.carry a b) (s.setReg x ((sum9 a b).setWidth 8))))

/-- `reg-sub X, Y` (R117): the difference, then not-borrow. -/
def execRegSub (x y : Reg) (s : State) : Host.Outcome State Fault Refusal :=
  let a := s.reg x
  let b := s.reg y
  .next (advance (setFlag (.notBorrow a b) (s.setReg x (a - b))))

/-- `reg-shr X` (R118): the flag first, then the shift of the register as it then is. -/
def execRegShr (x : Reg) (s : State) : Host.Outcome State Fault Refusal :=
  let t := setFlag (.lowBit (s.reg x)) s
  .next (advance (t.setReg x (t.reg x >>> 1)))

/-- `reg-subn X, Y` (R119): the reversed difference, then not-borrow. -/
def execRegSubn (x y : Reg) (s : State) : Host.Outcome State Fault Refusal :=
  let a := s.reg x
  let b := s.reg y
  .next (advance (setFlag (.notBorrow b a) (s.setReg x (b - a))))

/-- `reg-shl X` (R120): the flag first, then the shift of the register as it then is. -/
def execRegShl (x : Reg) (s : State) : Host.Outcome State Fault Refusal :=
  let t := setFlag (.highBit (s.reg x)) s
  .next (advance (t.setReg x (t.reg x <<< 1)))

end Sys2Proof.Machine
end

