-- ==== Sys2Proof/Machine/Operands.lean ====
section
/-! DEFINITION. The operand forms: the address operand, the key index, the key that `wait-key` reports,
the sprite, the register block and the decimal digits. -/
namespace Sys2Proof.Machine

/-- `zext_16(NNN)` (R73). -/
def zextAddr (nnn : Addr) : Word := nnn.setWidth 16

/-- `zext_16(V[x])`: a register widened to 16 bits with zeros (R131, R132). -/
def zextReg (x : Reg) (s : State) : Word := (s.reg x).setWidth 16

/-- The number of bytes a block transfer moves: registers 0 to X, `X + 1` bytes (R73). -/
def blockLength (x : Reg) : Nat := x.toNat + 1

/-- `V[0..X]` in ascending order (R134). -/
def blockRegs (x : Reg) (s : State) : List Byte := s.v.toList.take (blockLength x)

/-- `I <- trunc_16(I + X + 1)` (R134, R135). -/
def advanceIndex (x : Reg) (s : State) : State := s.withI (s.i + BitVec.ofNat 16 (blockLength x))

/-- The sprite of `draw`: `N` bytes at `I`, `I + 1`, ..., top row first (R142). -/
def spriteRows (n : Nibble) (s : State) : List Byte := s.bytes s.i.toNat n.toNat

/-- The decimal digits of a byte, hundreds first (R133). -/
def bcdDigits (v : Byte) : List Byte := [v / 100, (v / 10) % 10, v % 10]

/-! ### Keys (R150 to R154) -/

/-- `K[k]`. -/
def keyPressed (keys : BitVec 16) (k : Nat) : Bool := keys.getLsbD k

/-- The pressed keys, lowest first. -/
def pressedKeys (keys : BitVec 16) : List Nat := (List.range 16).filter (keyPressed keys)

/-- `KEY_SELECT(K)` (R154): one of the pressed keys; which one is free when several are pressed
(`Config.keySelect`, log entry 6). Its value is unused when no key is pressed. -/
def keySelect (keys : BitVec 16) : Nat :=
  match pressedKeys keys with
  | []      => 0
  | [k]     => k
  | k :: ks => ((k :: ks)[Config.keySelect keys % (ks.length + 1)]?).getD k

/-- The key `V[x]` names, or `OutOfBounds(KEY, V[x])` when it is above 15 (R151): the whole byte is the
index. -/
def keyIndex (x : Reg) (s : State) : Except FaultCause Nat :=
  if (s.reg x).toNat ≤ 15 then .ok (s.reg x).toNat
  else .error (.outOfBounds .key ((s.reg x).setWidth 16))

end Sys2Proof.Machine
end

