-- ==== Sys2Proof/Machine/Control.lean ====
section
/-! DEFINITION. Control transfer (40_control_transfer.md R100 to R106). Each definition is the execute
phase of `Step`; the no-progress check runs after it (`commit`). -/
namespace Sys2Proof.Machine

/-- `return` (R101). -/
def execRet (s : State) : Host.Outcome State Fault Refusal :=
  match popReturn s with
  | none        => .next (raise .stackUnderflow s)
  | some (a, t) => .next (jumpTo a t)

/-- `jump addr` (R102). -/
def execJump (nnn : Addr) (s : State) : Host.Outcome State Fault Refusal :=
  .next (jumpTo (zextAddr nnn) s)

/-- `call addr` (R103). -/
def execCall (nnn : Addr) (s : State) : Host.Outcome State Fault Refusal :=
  match pushReturn (s.pc + 2) s with
  | none   => .next (raise .stackOverflow s)
  | some t => .next (jumpTo (zextAddr nnn) t)

/-- `skip-eq-imm X, byte` (R104). -/
def execSkipEqImm (x : Reg) (nn : Byte) (s : State) : Host.Outcome State Fault Refusal :=
  .next (skipIf (s.reg x == nn) s)

/-- `skip-neq-imm X, byte` (R105). -/
def execSkipNeqImm (x : Reg) (nn : Byte) (s : State) : Host.Outcome State Fault Refusal :=
  .next (skipIf (s.reg x != nn) s)

end Sys2Proof.Machine
end

