-- ==== Sys2Proof/Machine/Blit.lean ====
section
/-! DEFINITION. The Display component's operations (43_display.md R140): `Clear` and `Blit`, for a grid
of any size. -/
namespace Sys2Proof.Machine

/-- Pixel `x` of a row; an unlit pixel outside the row. -/
def rowPixel {w : Nat} (row : Vector Bool w) (x : Nat) : Bool := (row[x]?).getD false

/-- `D[y][x]`; an unlit pixel outside the grid. -/
def Grid.pixel {w h : Nat} (g : Grid w h) (x y : Nat) : Bool :=
  match g[y]? with
  | none     => false
  | some row => rowPixel row x

/-- `D[y][x]` of a state. -/
def State.pixel (s : State) (x y : Nat) : Bool := s.display.pixel x y

/-- The state with the grid `g` for its display. -/
def State.withDisplay (s : State) (g : Grid s.cfg.displayW s.cfg.displayH) : State :=
  { s with display := g }

/-- `Clear()` (R141): every pixel 0. -/
def Grid.clear (w h : Nat) : Grid w h := Vector.replicate h (Vector.replicate w false)

/-- Sprite bit `c` of a row byte: `c = 0` is bit 7, the leftmost (R144). -/
def spriteBit (b : Byte) (c : Nat) : Bool := b.getLsbD (7 - c)

/-- One pass of the inner loop of R144: XOR the sprite bit onto pixel `px` of the row, and report a
pixel that goes from 1 to 0. -/
def blitPixel {w : Nat} (bit : Bool) (px : Nat) (acc : Vector Bool w × Bool) : Vector Bool w × Bool :=
  let old := rowPixel acc.1 px
  let new := old ^^ bit
  (acc.1.setIfInBounds px new, acc.2 || (old && !new))

/-- The inner loop of R144: the 8 bits of a row byte, most significant first, onto the columns
`(x0 + c) mod DISPLAY_W` of one row of the grid. -/
def blitRow {w : Nat} (x0 : Nat) (b : Byte) (acc : Vector Bool w × Bool) : Vector Bool w × Bool :=
  (List.range 8).foldl (fun a c => blitPixel (spriteBit b c) ((x0 + c) % w) a) acc

/-- The outer loop of R144 from sprite row `r` on: row `(y0 + r) mod DISPLAY_H` of the grid takes the
row byte; both coordinates wrap. -/
def blitRows {w h : Nat} (x0 y0 r : Nat) (g : Grid w h) (coll : Bool) : List Byte → Grid w h × Bool
  | []      => (g, coll)
  | b :: bs =>
    let py := (y0 + r) % h
    match g[py]? with
    | none     => (g, coll)
    | some row =>
      let out := blitRow x0 b (row, coll)
      blitRows x0 y0 (r + 1) (g.setIfInBounds py out.1) out.2 bs

/-- `Blit(x0, y0, rows) -> collision` (R144): the new grid and whether any pixel went from 1 to 0
(R145). -/
def blit {w h : Nat} (x0 y0 : Nat) (rows : List Byte) (g : Grid w h) : Grid w h × Bool :=
  blitRows x0 y0 0 g false rows

end Sys2Proof.Machine
end

