-- ==== Sys2Proof/Machine/Display.lean ====
section
/-! DEFINITION. Display instructions (43_display.md R141, R143). -/
namespace Sys2Proof.Machine

/-- `clear-screen` (R141): every pixel 0, `present`; VF is not written. -/
def execClearScreen (s : State) : Host.Outcome State Fault Refusal :=
  .next (advance (emitPresent (s.withDisplay (Grid.clear s.cfg.displayW s.cfg.displayH))))

/-- `draw X, Y, n` (R143): the coordinates and the sprite are read before any write; VF receives the
collision flag last. -/
def execDraw (x y : Reg) (n : Nibble) (s : State) : Host.Outcome State Fault Refusal :=
  match checkSpan s.i.toNat n.toNat with
  | some f => .next (raise f s)
  | none   =>
    let out := blit (s.reg x).toNat (s.reg y).toNat (spriteRows n s) s.display
    .next (advance (emitPresent (setFlag (.collision out.2) (s.withDisplay out.1))))

end Sys2Proof.Machine
end

