-- ==== Sys2Proof/Machine/Index.lean ====
section
/-! DEFINITION. Index-register and memory instructions (42_index_memory.md R130 to R136). Every address is
checked before anything changes (20_memory.md R54). -/
namespace Sys2Proof.Machine

/-- `set-index addr` (R130). -/
def execSetIndex (nnn : Addr) (s : State) : Host.Outcome State Fault Refusal :=
  .next (advance (s.withI (zextAddr nnn)))

/-- `add-index X` (R131): modulo 2^16, no flag, no fault (log entry 9). -/
def execAddIndex (x : Reg) (s : State) : Host.Outcome State Fault Refusal :=
  .next (advance (s.withI (s.i + zextReg x s)))

/-- `font-char-addr X` (R132): `V[X]` is not masked to a digit. -/
def execFontCharAddr (x : Reg) (s : State) : Host.Outcome State Fault Refusal :=
  .next (advance (s.withI (zextReg x s * 5)))

/-- `store-bcd X` (R133): hundreds, tens and units at `I`, `I + 1`, `I + 2`. -/
def execStoreBcd (x : Reg) (s : State) : Host.Outcome State Fault Refusal :=
  match checkSpan s.i.toNat 3 with
  | some f => .next (raise f s)
  | none   => .next (advance (s.store s.i.toNat (bcdDigits (s.reg x))))

/-- `store-block X` (R134): `V[0..X]` at `I` and up; `I` advances. -/
def execStoreBlock (x : Reg) (s : State) : Host.Outcome State Fault Refusal :=
  match checkSpan s.i.toNat (blockLength x) with
  | some f => .next (raise f s)
  | none   =>
    .next (advance (advanceIndex x (s.store s.i.toNat (blockRegs x s))))

/-- `load-block X` (R135): `V[0..X]` from `I` and up; `I` advances. -/
def execLoadBlock (x : Reg) (s : State) : Host.Outcome State Fault Refusal :=
  match checkSpan s.i.toNat (blockLength x) with
  | some f => .next (raise f s)
  | none   =>
    .next (advance (advanceIndex x
      (s.withV (loadRegs s.v 0 (s.bytes s.i.toNat (blockLength x))))))

end Sys2Proof.Machine
end

