-- ==== Sys2Proof/Machine/Keyboard.lean ====
section
/-! DEFINITION. Keyboard instructions (44_keyboard.md R151 to R153). -/
namespace Sys2Proof.Machine

/-- `skip-key-eq X` (R151). -/
def execSkipKeyEq (x : Reg) (s : State) : Host.Outcome State Fault Refusal :=
  match keyIndex x s with
  | .error f => .next (raise f s)
  | .ok k    => .next (skipIf (keyPressed s.keys k) s)

/-- `skip-key-neq X` (R152). -/
def execSkipKeyNeq (x : Reg) (s : State) : Host.Outcome State Fault Refusal :=
  match keyIndex x s with
  | .error f => .next (raise f s)
  | .ok k    => .next (skipIf (!keyPressed s.keys k) s)

/-- `wait-key X` (R153): suspended with nothing changed while no key is pressed; else `V[X]` receives
the key `KEY_SELECT` reports. -/
def execWaitKey (x : Reg) (s : State) : Host.Outcome State Fault Refusal :=
  if s.keys = 0 then .next s
  else .next (advance (s.setReg x (BitVec.ofNat 8 (keySelect s.keys))))

end Sys2Proof.Machine
end

