-- ==== Sys2Proof/Machine/Timers.lean ====
section
/-! DEFINITION. Timer instructions (45_timers.md R161 to R163); the countdown itself is the host's
`Tick` (HostOps.lean). -/
namespace Sys2Proof.Machine

/-- `get-timer X` (R161). -/
def execGetTimer (x : Reg) (s : State) : Host.Outcome State Fault Refusal :=
  .next (advance (s.setReg x s.dt))

/-- `set-timer X` (R162). -/
def execSetTimer (x : Reg) (s : State) : Host.Outcome State Fault Refusal :=
  .next (advance (s.withDt (s.reg x)))

/-- `set-sound-timer X` (R163). -/
def execSetSoundTimer (x : Reg) (s : State) : Host.Outcome State Fault Refusal :=
  .next (advance (s.withSt (s.reg x)))

end Sys2Proof.Machine
end

