-- ==== Sys2Proof/Machine/Dispatch.lean ====
section
/-! DEFINITION. The execute phase of `Step` (46_host_operations.md R171, phase 4): one arm per instruction. -/
namespace Sys2Proof.Machine

def exec (i : Instr) (s : State) : Host.Outcome State Fault Refusal :=
  match i with
  | .clearScreen => Sys2Proof.Machine.execClearScreen s
  | .ret => Sys2Proof.Machine.execRet s
  | .jump nnn => Sys2Proof.Machine.execJump nnn s
  | .call nnn => Sys2Proof.Machine.execCall nnn s
  | .skipEqImm x nn => Sys2Proof.Machine.execSkipEqImm x nn s
  | .skipNeqImm x nn => Sys2Proof.Machine.execSkipNeqImm x nn s
  | .setImm x nn => Sys2Proof.Machine.execSetImm x nn s
  | .addImm x nn => Sys2Proof.Machine.execAddImm x nn s
  | .regAssign x y => Sys2Proof.Machine.execRegAssign x y s
  | .regAnd x y => Sys2Proof.Machine.execRegAnd x y s
  | .regXor x y => Sys2Proof.Machine.execRegXor x y s
  | .regAdd x y => Sys2Proof.Machine.execRegAdd x y s
  | .regSub x y => Sys2Proof.Machine.execRegSub x y s
  | .regShr x => Sys2Proof.Machine.execRegShr x s
  | .regSubn x y => Sys2Proof.Machine.execRegSubn x y s
  | .regShl x => Sys2Proof.Machine.execRegShl x s
  | .setIndex nnn => Sys2Proof.Machine.execSetIndex nnn s
  | .draw x y n => Sys2Proof.Machine.execDraw x y n s
  | .skipKeyEq x => Sys2Proof.Machine.execSkipKeyEq x s
  | .skipKeyNeq x => Sys2Proof.Machine.execSkipKeyNeq x s
  | .getTimer x => Sys2Proof.Machine.execGetTimer x s
  | .waitKey x => Sys2Proof.Machine.execWaitKey x s
  | .setTimer x => Sys2Proof.Machine.execSetTimer x s
  | .setSoundTimer x => Sys2Proof.Machine.execSetSoundTimer x s
  | .addIndex x => Sys2Proof.Machine.execAddIndex x s
  | .fontCharAddr x => Sys2Proof.Machine.execFontCharAddr x s
  | .storeBcd x => Sys2Proof.Machine.execStoreBcd x s
  | .storeBlock x => Sys2Proof.Machine.execStoreBlock x s
  | .loadBlock x => Sys2Proof.Machine.execLoadBlock x s

end Sys2Proof.Machine
end

