-- ==== Sys2Proof/Machine/Step.lean ====
section
/-! DEFINITION. `Step()` (46_host_operations.md R171), and where an instruction lies that it fetches. -/
namespace Sys2Proof.Machine

/-- `Step()` of R171. Phase 0: a latched fault halts the core, and the step changes nothing (R197).
Phases 1 to 6: `PPC <- pc`, fetch, decode, execute, the no-progress check, commit. A fault of any phase
is taken on the state before the instruction (R196). The result the host is given is
`State.stepResult` of the next state (R172). -/
def step (s : State) : Host.Outcome State Fault Refusal :=
  match s.fault with
  | some _ => .next s
  | none =>
    let before := beginStep s
    match fetch before with
    | .error f => .next (raise f before)
    | .ok w =>
      match decode w with
      | .decodeFault bad => .next (raise (.decodeFault bad) before)
      | .instr i =>
        match exec i before with
        | .next after => .next (commit i before after)
        | .fault f    => .fault f
        | .refused r  => .refused r

/-- The state with the instruction word `w` (its bits numbered as spec/opcode_table.json numbers them)
where the next step fetches it: `placeWord` says what is stored (log entry 13). -/
def State.withFetchWord (s : State) (nbits w : Nat) : State :=
  placeWord (BitVec.ofNat 16 (w % 2 ^ nbits)) s

end Sys2Proof.Machine
end

