-- ==== Sys2Proof/WellFormed.lean ====
section
/-! DEFINITION. The checks on what is given to the machine from outside: the configuration (00_scope.md
R6), the program image (46_host_operations.md R177), and an instruction's operands written as numbers
(30_encoding.md R82). The operands of `Instr` have the widths of their fields (R71), so every term of it
passes `Instr.wellFormed` (Laws/Decode.lean proves it). -/
namespace Sys2Proof

/-- `80 <= ORIGIN < MEM_SIZE` (R6). -/
def Params.originOk (p : Params) : Bool := 80 ≤ p.origin && p.origin < Config.memSize

/-- `DISPLAY_W >= 8` and `DISPLAY_H >= 15`, so that no pixel is touched twice by one draw (R6, R146). -/
def Params.displayOk (p : Params) : Bool := 8 ≤ p.displayW && 15 ≤ p.displayH

/-- `STACK_DEPTH >= 1` (R6). -/
def Params.stackOk (p : Params) : Bool := 1 ≤ p.stackDepth

/-- `FONT` is 16 glyphs of 5 bytes (R6, R57). -/
def Params.fontOk (p : Params) : Bool := p.font.length == 80

/-- The constraints a configuration must meet (R6). -/
def Params.wellFormed (p : Params) : Bool :=
  p.originOk && p.displayOk && p.stackOk && p.fontOk

/-- A program image fits: `len <= MEM_SIZE - ORIGIN` (R177). -/
def imageFits (p : Params) (image : List Byte) : Bool := image.length ≤ Config.memSize - p.origin

/-- A number fits an operand field of `width` bits (R82). -/
def operandFits (width n : Nat) : Bool := n < 2 ^ width

/-- Every operand fits its field: `X`, `Y`, `N` 4 bits, `NN` 8, `NNN` 12 (R71, R82). -/
def Instr.wellFormed : Instr → Bool
  | .clearScreen | .ret => true
  | .jump nnn | .call nnn | .setIndex nnn => operandFits 12 nnn.toNat
  | .skipEqImm x nn | .skipNeqImm x nn | .setImm x nn | .addImm x nn =>
      operandFits 4 x.toNat && operandFits 8 nn.toNat
  | .regAssign x y | .regAnd x y | .regXor x y | .regAdd x y | .regSub x y | .regSubn x y =>
      operandFits 4 x.toNat && operandFits 4 y.toNat
  | .draw x y n => operandFits 4 x.toNat && operandFits 4 y.toNat && operandFits 4 n.toNat
  | .regShr x | .regShl x | .skipKeyEq x | .skipKeyNeq x | .getTimer x | .waitKey x | .setTimer x
  | .setSoundTimer x | .addIndex x | .fontCharAddr x | .storeBcd x | .storeBlock x | .loadBlock x =>
      operandFits 4 x.toNat

end Sys2Proof
end

