-- ==== Sys2Proof/Machine/HostOps.lean ====
section
/-! DEFINITION. The host's operations on the core other than `Step`, and what the core shows the host
(46_host_operations.md R172 to R184). -/
namespace Sys2Proof.Machine

/-! ### Tick, SetKey, Load (R174, R175, R177) -/

/-- A timer counts down toward zero and stays there (R174). -/
def countDown (t : Byte) : Byte := if t = 0 then 0 else t - 1

/-- `Tick()` (R174): both timers count down, whether or not `FAULT` is set. -/
def tick (s : State) : State := { s with dt := countDown s.dt, st := countDown s.st }

/-- One bit of the key register set or cleared. -/
def setKeyBit (keys : BitVec 16) (code : Nibble) (pressed : Bool) : BitVec 16 :=
  if pressed then keys ||| ((1 : BitVec 16) <<< code.toNat)
  else keys &&& ~~~((1 : BitVec 16) <<< code.toNat)

/-- `SetKey(code, pressed)` (R175); `code` is a 4-bit quantity. -/
def setKey (code : Nibble) (pressed : Bool) (s : State) : State :=
  { s with keys := setKeyBit s.keys code pressed }

/-- `Load(image)` (R177): the image unmodified at `ORIGIN`; an over-long image is refused (U5). -/
def loadImage (image : List Byte) (s : State) : Host.Outcome State Fault Refusal :=
  if imageFits s.cfg image then .next (s.store s.cfg.origin image)
  else .refused (.imageTooLong image.length)

/-- The start-up sequence `Reset ; Load(image)` on configuration `p` (R221). -/
def launch (p : Params) (image : List Byte) : Host.Outcome State Fault Refusal :=
  loadImage image (State.resetOf p)

/-! ### The result of `Step` and the outputs (R172, R180 to R184) -/

/-- The result `Step` returns (R171, R172). -/
inductive StepResult where
  | ok
  | fault (r : FaultRecord)
  deriving DecidableEq, Repr

/-- The result of the `Step` that left this state: the latched record, or `Ok` (R171, R172). -/
def State.stepResult (s : State) : StepResult :=
  match s.fault with
  | none   => .ok
  | some r => .fault r

/-- The cause code of a fault (R190, decision D14). -/
def faultCode : FaultCause → BitVec 3
  | .decodeFault _   => 1
  | .stackUnderflow  => 2
  | .stackOverflow   => 3
  | .outOfBounds _ _ => 4
  | .noProgress      => 5

/-- The information value of a fault (R190). -/
def faultInfo : FaultCause → Word
  | .decodeFault w      => w
  | .stackUnderflow     => 0
  | .stackOverflow      => 0
  | .outOfBounds _ info => info
  | .noProgress         => 0

/-- The space of a fault, meaningful only for `OutOfBounds` (R190). -/
def faultSpace : FaultCause → Option FaultSpace
  | .decodeFault _       => none
  | .stackUnderflow      => none
  | .stackOverflow       => none
  | .outOfBounds space _ => some space
  | .noProgress          => none

/-- `sound_active = (ST != 0)` (R182). -/
def State.soundActive (s : State) : Bool := s.st != 0

/-- Whether the core is waiting for a key: a function of `M`, `pc`, `K` and the latch (R29). -/
def State.waiting (s : State) : Bool :=
  match s.fault, fetch s with
  | none, .ok w =>
    match decode w with
    | .instr i       => suspended i s
    | .decodeFault _ => false
  | _, _ => false

/-- The outputs of the abstract port list (R184), apart from `pixel`, which is `State.display` itself,
and `present`, which `State.presents` counts. Code 0 is no fault (R190); the pc and information shown
with no fault are 0. DESIGN CHOICE, safe (log entry 21). -/
structure Ports where
  faultValid  : Bool
  faultCode   : BitVec 3
  faultPc     : Word
  faultInfo   : Word
  faultSpace  : Option FaultSpace
  soundActive : Bool
  deriving DecidableEq, Repr

/-- The outputs a state shows (R184). -/
def State.ports (s : State) : Ports :=
  match s.fault with
  | none   => ⟨false, 0, 0, 0, none, s.soundActive⟩
  | some r => ⟨true, faultCode r.cause, r.pc, faultInfo r.cause, faultSpace r.cause, s.soundActive⟩

end Sys2Proof.Machine
end

