-- ==== Sys2Proof/Machine/Run.lean ====
section
/-! DEFINITION. A run of the machine: a sequence of host operations, one at a time, in any order and
proportion (46_host_operations.md R178). The schedule is the argument, not state (10_state.md R38). -/
namespace Sys2Proof.Machine

/-- The operations a host performs after `Reset ; Load` (R178). -/
inductive HostOp where
  | step
  | tick
  | setKey (code : Nibble) (pressed : Bool)
  deriving DecidableEq, Repr

/-- One host operation. -/
def applyOp (op : HostOp) (s : State) : Host.Outcome State Fault Refusal :=
  match op with
  | .step                => step s
  | .tick                => .next (tick s)
  | .setKey code pressed => .next (setKey code pressed s)

/-- A sequence of host operations, from a state on. -/
def runOps : List HostOp → State → Host.Outcome State Fault Refusal
  | [], s        => .next s
  | op :: ops, s =>
    match applyOp op s with
    | .next t    => runOps ops t
    | .fault f   => .fault f
    | .refused r => .refused r

/-- `Reset ; Load(image) ; op_1 ; op_2 ; ...` on configuration `p` (R178). -/
def runImage (p : Params) (image : List Byte) (ops : List HostOp) :
    Host.Outcome State Fault Refusal :=
  match launch p image with
  | .next s    => runOps ops s
  | .fault f   => .fault f
  | .refused r => .refused r

end Sys2Proof.Machine
end

