-- ==== Sys2Proof/Safety.lean ====
section
/-! DEFINITION. The invariant of the machine (10_state.md R37), the end of a run (46_host_operations.md
R183), and what a fault record may hold (60_exceptions.md R190 to R195). -/
namespace Sys2Proof.Machine

/-- `pc` is at most `0x1002` (R24): an instruction runs only after a fetch, which needs `pc <= 0xFFE`. -/
abbrev State.PcBounded (s : State) : Prop := s.pc.toNat ≤ 0x1002

/-- Every return address held, `STK[j]` with `j < SP`, is from 2 to `0x1000` (R37, R101). -/
abbrev State.StackBounded (s : State) : Prop :=
  ∀ j, j < s.sp.val → 2 ≤ (s.slot j).toNat ∧ (s.slot j).toNat ≤ 0x1000

/-- What a fault's information value can be (R190 to R193): the word of a `DecodeFault` is illegal, a
`MEM` address is above `0xFFF`, a key index is above 15 and a byte. -/
abbrev FaultCause.Consistent : FaultCause → Prop
  | .decodeFault w         => decode w = .decodeFault w
  | .stackUnderflow        => True
  | .stackOverflow         => True
  | .outOfBounds .mem info => 0x1000 ≤ info.toNat
  | .outOfBounds .key info => 16 ≤ info.toNat ∧ info.toNat ≤ 255
  | .noProgress            => True

/-- A latched record names the instruction `pc` still addresses (R196), and its information is one the
fault can have. -/
abbrev State.LatchConsistent (s : State) : Prop :=
  match s.fault with
  | none   => True
  | some r => r.pc = s.pc ∧ s.ppc = s.pc ∧ r.cause.Consistent

/-- The invariant: a configuration R6 allows, memory in its canonical form, `pc` and the return addresses
in their ranges, the latch consistent. `SP <= STACK_DEPTH` and the 8-bit ranges of R37 hold by the types
of the fields. -/
abbrev State.Inv (s : State) : Prop :=
  s.cfg.wellFormed = true ∧ s.mem.wf s.cfg.font = true ∧ s.PcBounded ∧ s.StackBounded ∧ s.LatchConsistent

/-- The core is halted (R197). -/
abbrev State.Halted (s : State) : Prop := s.fault ≠ none

/-- The spec's convention for a finished program: `pc` holds the end address the claim chose, and the
host issues no further `Step` (R183, decision D34). -/
abbrev State.FinishedAt (endAddr : Word) (s : State) : Prop := s.pc = endAddr

/-! ### What an instruction may change (R39) -/

/-- The parts of the state, other than the registers and `pc`, that some instruction writes (R39). -/
inductive Part where
  | index
  | stack
  | memory
  | display
  | delayTimer
  | soundTimer
  | present
  deriving DecidableEq, Repr

/-- A part reads the same in both states: the stack slot by slot, memory byte by byte, the display pixel
by pixel. -/
def State.SamePart (s t : State) : Part → Prop
  | .index      => t.i = s.i
  | .stack      => (∀ j, t.slot j = s.slot j) ∧ t.sp.val = s.sp.val
  | .memory     => ∀ a, t.byte a = s.byte a
  | .display    => ∀ x y, t.pixel x y = s.pixel x y
  | .delayTimer => t.dt = s.dt
  | .soundTimer => t.st = s.st
  | .present    => t.presents = s.presents

/-- The frame: every register not named and every part not named is unchanged, and so are `K`, `PPC` and
`FAULT`, which no instruction's rule writes, and the configuration. `pc` may change. -/
def State.Frame (regs : List Reg) (parts : List Part) (s t : State) : Prop :=
  (∀ r : Reg, r ∉ regs → t.reg r = s.reg r) ∧ (∀ p : Part, p ∉ parts → s.SamePart t p) ∧
  t.keys = s.keys ∧ t.ppc = s.ppc ∧ t.fault = s.fault ∧ t.cfg = s.cfg

/-- The registers 0 to X, those a block load writes (R135). -/
def regsUpTo (x : Reg) : List Reg := (List.range (blockLength x)).map (BitVec.ofNat 4)

/-- The register columns of R39: the registers an instruction may write. -/
def writesRegs : Instr → List Reg
  | .setImm x _ | .addImm x _ | .regAssign x _ | .regAnd x _ | .regXor x _ | .getTimer x
  | .waitKey x => [x]
  | .regAdd x _ | .regSub x _ | .regSubn x _ | .regShr x | .regShl x => [x, 15]
  | .draw _ _ _ => [15]
  | .loadBlock x => regsUpTo x
  | .clearScreen | .ret | .jump _ | .call _ | .skipEqImm _ _ | .skipNeqImm _ _ | .setIndex _
  | .skipKeyEq _ | .skipKeyNeq _ | .setTimer _ | .setSoundTimer _ | .addIndex _ | .fontCharAddr _
  | .storeBcd _ | .storeBlock _ => []

/-- The other columns of R39: the parts an instruction may write (`present` by R148). -/
def writesParts : Instr → List Part
  | .clearScreen | .draw _ _ _ => [.display, .present]
  | .ret | .call _ => [.stack]
  | .setIndex _ | .addIndex _ | .fontCharAddr _ | .loadBlock _ => [.index]
  | .storeBcd _ => [.memory]
  | .storeBlock _ => [.memory, .index]
  | .setTimer _ => [.delayTimer]
  | .setSoundTimer _ => [.soundTimer]
  | .jump _ | .skipEqImm _ _ | .skipNeqImm _ _ | .setImm _ _ | .addImm _ _ | .regAssign _ _
  | .regAnd _ _ | .regXor _ _ | .regAdd _ _ | .regSub _ _ | .regShr _ | .regSubn _ _ | .regShl _
  | .skipKeyEq _ | .skipKeyNeq _ | .getTimer _ | .waitKey _ => []

end Sys2Proof.Machine
end

