-- ==== Sys2Proof/Certificates/Slice0/Obligations.lean ====
section
/-! DEFINITION. The statements for the provers, each with the rule of spec/ it formalises. States are
arbitrary unless a hypothesis says otherwise. `Frame regs parts s t` (Safety.lean) says that everything but
the named registers and parts, and `pc`, is unchanged. -/

open Sys2Proof Sys2Proof.Machine

/-! ### Encoding -/

/-- R76, R82 and the words of 95_test_vectors.md. The opcode numbers are log entry 2 (the spec's D6). -/
def Obligations.DecodeReadsTheSpecsWords : Prop :=
  decode 0x00E0 = .instr .clearScreen ∧ decode 0x00EE = .instr .ret ∧
  decode 0x1ABC = .instr (.jump 0xABC) ∧ decode 0x332A = .instr (.skipEqImm 3 0x2A) ∧
  decode 0x632A = .instr (.setImm 3 0x2A) ∧ decode 0x8124 = .instr (.regAdd 1 2) ∧
  decode 0x84A6 = .instr (.regShr 4) ∧ decode 0xA2F0 = .instr (.setIndex 0x2F0) ∧
  decode 0xD015 = .instr (.draw 0 1 5) ∧ decode 0xE29E = .instr (.skipKeyEq 2) ∧
  decode 0xF518 = .instr (.setSoundTimer 5) ∧ decode 0xF265 = .instr (.loadBlock 2) ∧
  decode 0x5010 = .decodeFault 0x5010

/-- Decode and encode agree on every instruction, every operand at every value (R71 to R77). -/
def Obligations.DecodeOfEncodeIsTheInstruction : Prop :=
  ∀ i : Instr, decode (encode i) = .instr i

/-- The other direction: a legal word is the encoding of what it decodes to, but for the `Y` field of
the two shifts, which is ignored and assembled as 0 (R77). -/
def Obligations.EncodeOfDecodeIsTheWord : Prop :=
  ∀ (w : Word) (i : Instr), decode w = .instr i →
    encode i = (match i with
      | .regShr _ | .regShl _ => w &&& 0xFF0F
      | _ => w)

/-- The table-driven decoder is the case tree of R75, on every word. The opcode numbers are log entry 2. -/
def Obligations.DecodeIsTheCaseTree : Prop :=
  ∀ w : Word, decode w =
    (let cls := w.toNat / 0x1000
     let x : Reg := BitVec.ofNat 4 (w.toNat / 0x100)
     let y : Reg := BitVec.ofNat 4 (w.toNat / 0x10)
     let n := w.toNat % 0x10
     let nn := w.toNat % 0x100
     let byte : Byte := BitVec.ofNat 8 w.toNat
     let addr : Addr := BitVec.ofNat 12 w.toNat
     if cls = 0x0 then
       if w = 0x00E0 then .instr .clearScreen else if w = 0x00EE then .instr .ret else .decodeFault w
     else if cls = 0x1 then .instr (.jump addr)
     else if cls = 0x2 then .instr (.call addr)
     else if cls = 0x3 then .instr (.skipEqImm x byte)
     else if cls = 0x4 then .instr (.skipNeqImm x byte)
     else if cls = 0x6 then .instr (.setImm x byte)
     else if cls = 0x7 then .instr (.addImm x byte)
     else if cls = 0x8 then
       if n = 0x0 then .instr (.regAssign x y) else if n = 0x2 then .instr (.regAnd x y)
       else if n = 0x3 then .instr (.regXor x y) else if n = 0x4 then .instr (.regAdd x y)
       else if n = 0x5 then .instr (.regSub x y) else if n = 0x6 then .instr (.regShr x)
       else if n = 0x7 then .instr (.regSubn x y) else if n = 0xE then .instr (.regShl x)
       else .decodeFault w
     else if cls = 0xA then .instr (.setIndex addr)
     else if cls = 0xD then .instr (.draw x y (BitVec.ofNat 4 n))
     else if cls = 0xE then
       if nn = 0x9E then .instr (.skipKeyEq x) else if nn = 0xA1 then .instr (.skipKeyNeq x)
       else .decodeFault w
     else if cls = 0xF then
       if nn = 0x07 then .instr (.getTimer x) else if nn = 0x0A then .instr (.waitKey x)
       else if nn = 0x15 then .instr (.setTimer x) else if nn = 0x18 then .instr (.setSoundTimer x)
       else if nn = 0x1E then .instr (.addIndex x) else if nn = 0x29 then .instr (.fontCharAddr x)
       else if nn = 0x33 then .instr (.storeBcd x) else if nn = 0x55 then .instr (.storeBlock x)
       else if nn = 0x65 then .instr (.loadBlock x) else .decodeFault w
     else .decodeFault w)

/-- R76: a word selects a row exactly when `w & mask = match`, and no word selects two rows. -/
def Obligations.OpcodeRowsAreMatchAndMaskAndDisjoint : Prop :=
  (∀ w : Word, ∀ r ∈ opcodeTable, rowMatches w r = true ↔ w &&& rowMask r = rowCode r) ∧
  (∀ w : Word, (opcodeTable.filter (rowMatches w)).length ≤ 1)

/-! ### Step, fetch and the faults -/

/-- R55: the fetch reads the two bytes at `pc`, high byte first, when `pc <= 0xFFE`; at `0xFFF` the
fault is `OutOfBounds(0x1000)`, above it `OutOfBounds(pc)`, and the step that takes it changes nothing
but `FAULT` and `PPC`. Any parity of `pc` is accepted (R58). -/
def Obligations.FetchIsBigEndianAndChecked : Prop :=
  ∀ s : State,
    (s.pc.toNat ≤ 0xFFE →
      ∃ w : Word, fetch s = .ok w ∧
        w.toNat = (s.byte s.pc.toNat).toNat * 256 + (s.byte (s.pc.toNat + 1)).toNat) ∧
    (s.pc.toNat = 0xFFF → fetch s = .error (.outOfBounds .mem 0x1000) ∧
      (s.fault = none →
        step s = .next { s with ppc := s.pc, fault := some ⟨.outOfBounds .mem 0x1000, s.pc⟩ })) ∧
    (0x1000 ≤ s.pc.toNat → fetch s = .error (.outOfBounds .mem s.pc) ∧
      (s.fault = none →
        step s = .next { s with ppc := s.pc, fault := some ⟨.outOfBounds .mem s.pc, s.pc⟩ }))

/-- R171: on a core that is not halted, where the two bytes at `pc` decode to an instruction, the step is
that instruction's `exec` on the state with `PPC` set to `pc`, followed by the no-progress check: a fault
of the instruction stands, a new `pc` equal to the old is `NoProgress` on the unchanged state unless the
instruction is a suspended `wait-key`, and otherwise the state `exec` left is the next state. -/
def Obligations.StepRunsTheDecodedInstruction : Prop :=
  ∀ (s : State) (i : Instr), s.fault = none → s.pc.toNat ≤ 0xFFE →
    decode (s.byte s.pc.toNat ++ s.byte (s.pc.toNat + 1) : Word) = .instr i →
    ∃ t : State, exec i { s with ppc := s.pc } = .next t ∧
      step s = .next
        (if t.fault = none ∧ t.pc = s.pc ∧ ¬ (∃ x, i = .waitKey x ∧ s.keys = 0) then
          { s with ppc := s.pc, fault := some ⟨.noProgress, s.pc⟩ }
        else t)

/-- Every step has a next state, from every state: the five faults are next states (R171, R190, R197), and
no word stops the model. -/
def Obligations.EveryStepAnswersNext : Prop := ∀ s : State, ∃ t : State, step s = .next t

/-- R196: a step that raises a fault changes nothing but `FAULT` and `PPC`, and the record names the
faulting instruction. -/
def Obligations.FaultingStepIsPrecise : Prop :=
  ∀ (s t : State) (r : FaultRecord), s.fault = none → step s = .next t → t.fault = some r →
    r.pc = s.pc ∧ t = { s with ppc := s.pc, fault := some r }

/-- R197, R171 phase 0: once `FAULT` is set every step returns the state unchanged, and whatever the host
does short of `Reset`, the record, `pc`, the registers, the stack, memory and display stay. -/
def Obligations.HaltedCoreKeepsItsRecord : Prop :=
  (∀ s : State, s.fault ≠ none → step s = .next s) ∧
  (∀ (ops : List HostOp) (s : State), s.fault ≠ none →
    ∃ t : State, runOps ops s = .next t ∧
      t = { s with keys := t.keys, dt := t.dt, st := t.st })

/-- R37, R195: a step that completes without fault changes `pc`, unless it is a suspended `wait-key` (the
word at `pc` is a `wait-key` and no key is pressed), which changes nothing but `PPC`. -/
def Obligations.CompletedStepMovesThePc : Prop :=
  ∀ s t : State, s.fault = none → step s = .next t → t.fault = none →
    t.pc ≠ s.pc ∨
    ((∃ w x, fetch s = .ok w ∧ decode w = .instr (.waitKey x)) ∧ s.keys = 0 ∧
      t = { s with ppc := s.pc })

/-- R106: only `jump`, `call` and `return` whose target is their own address raise `NoProgress`. -/
def Obligations.OnlySelfTargetsRaiseNoProgress : Prop :=
  ∀ (s t : State) (p : Word), s.fault = none → step s = .next t → t.fault = some ⟨.noProgress, p⟩ →
    ∃ w : Word, fetch s = .ok w ∧
      ((∃ nnn : Addr, decode w = .instr (.jump nnn) ∧ nnn.toNat = s.pc.toNat) ∨
       (∃ nnn : Addr, decode w = .instr (.call nnn) ∧ nnn.toNat = s.pc.toNat ∧
          s.sp.val < s.cfg.stackDepth) ∨
       (decode w = .instr .ret ∧ ∃ j, j + 1 = s.sp.val ∧ s.slot j = s.pc))

/-- R195, R101 to R103: a `jump`, a `call` (with room on the stack) and a `return` to its own address
raise `NoProgress`, and nothing of the instruction's effect is kept. -/
def Obligations.SelfTargetsRaiseNoProgress : Prop :=
  ∀ (s : State) (w : Word) (i : Instr), s.fault = none → fetch s = .ok w → decode w = .instr i →
    ((∃ nnn : Addr, i = .jump nnn ∧ nnn.toNat = s.pc.toNat) ∨
     (∃ nnn : Addr, i = .call nnn ∧ nnn.toNat = s.pc.toNat ∧ s.sp.val < s.cfg.stackDepth) ∨
     (i = .ret ∧ ∃ j, j + 1 = s.sp.val ∧ s.slot j = s.pc)) →
    step s = .next { s with ppc := s.pc, fault := some ⟨.noProgress, s.pc⟩ }

/-- R198, R191, R193: the order of the faults of one step: the fetch's bounds before the decode, an
illegal word before any instruction's fault, a full stack before `NoProgress` in a `call`. -/
def Obligations.FaultsComeInPhaseOrder : Prop :=
  (∀ s : State, s.fault = none → 0xFFE < s.pc.toNat →
    step s = .next { s with
      ppc := s.pc
      fault := some ⟨.outOfBounds .mem (BitVec.ofNat 16 (max s.pc.toNat 0x1000)), s.pc⟩ }) ∧
  (∀ (s : State) (w : Word), s.fault = none → fetch s = .ok w → decode w = .decodeFault w →
    step s = .next { s with ppc := s.pc, fault := some ⟨.decodeFault w, s.pc⟩ }) ∧
  (∀ (s : State) (w : Word) (nnn : Addr), s.fault = none → fetch s = .ok w →
    decode w = .instr (.call nnn) → s.sp.val = s.cfg.stackDepth →
    step s = .next { s with ppc := s.pc, fault := some ⟨.stackOverflow, s.pc⟩ })

/-- R190: the code, space and information the host sees of a latched record, and code 0 without one. -/
def Obligations.FaultPortsShowTheRecord : Prop :=
  ∀ s : State,
    (s.fault = none → s.ports.faultValid = false ∧ s.ports.faultCode = 0 ∧ s.stepResult = .ok) ∧
    (∀ r : FaultRecord, s.fault = some r →
      s.stepResult = .fault r ∧ s.ports.faultValid = true ∧ s.ports.faultPc = r.pc ∧
      (∀ w, r.cause = .decodeFault w → s.ports.faultCode = 1 ∧ s.ports.faultInfo = w) ∧
      (r.cause = .stackUnderflow → s.ports.faultCode = 2 ∧ s.ports.faultInfo = 0) ∧
      (r.cause = .stackOverflow → s.ports.faultCode = 3 ∧ s.ports.faultInfo = 0) ∧
      (∀ sp a, r.cause = .outOfBounds sp a →
        s.ports.faultCode = 4 ∧ s.ports.faultInfo = a ∧ s.ports.faultSpace = some sp) ∧
      (r.cause = .noProgress → s.ports.faultCode = 5 ∧ s.ports.faultInfo = 0))

/-! ### The invariant, reset, load -/

/-- Every step keeps the invariant, from every state that meets it (R37): a configuration R6 allows,
canonical memory, `pc` at most `0x1002`, return addresses from 2 to `0x1000`, a latch that names the
instruction `pc` addresses. -/
def Obligations.StepKeepsTheInvariant : Prop :=
  ∀ s t : State, s.Inv → step s = .next t → t.Inv

/-- The state after `Reset` meets the invariant, on every configuration R6 allows and on the default one. -/
def Obligations.ResetMeetsTheInvariant : Prop :=
  (∀ p : Params, p.wellFormed = true → (State.resetOf p).Inv) ∧ State.reset.Inv

/-- From every state that meets the invariant each host operation of R178 answers a state that meets it,
and so does a `Load` of an image that fits (R177); and every run `Reset ; Load ; op_1 ; op_2 ; ...`, on
every configuration R6 allows, whatever the image and the operations, goes through and ends in such a
state. The configuration never changes (R38). -/
def Obligations.EveryOperationAndRunKeepsTheInvariant : Prop :=
  (∀ (op : HostOp) (s : State), s.Inv →
    ∃ t : State, applyOp op s = .next t ∧ t.Inv ∧ t.cfg = s.cfg) ∧
  (∀ (image : List Byte) (s : State), s.Inv → image.length ≤ Config.memSize - s.cfg.origin →
    ∃ t : State, loadImage image s = .next t ∧ t.Inv ∧ t.cfg = s.cfg) ∧
  (∀ (p : Params) (image : List Byte) (ops : List HostOp), p.wellFormed = true →
    image.length ≤ Config.memSize - p.origin →
    ∃ t : State, runImage p image ops = .next t ∧ t.Inv ∧ t.cfg = p)

/-- R36, R57: the reset values, on every configuration R6 allows; `State.reset` is the one on the default
configuration. Those of `V`, `I`, `SP`, `D`, `K`, `DT`, `ST` and the rest of `M` are the spec's decisions
D21 and D32; `ORIGIN` and the font bytes are the configuration's (log entry 1). -/
def Obligations.ResetValues : Prop :=
  State.reset = State.resetOf Config.params ∧ Config.params.wellFormed = true ∧
  ∀ p : Params, p.wellFormed = true →
    let s := State.resetOf p
    s.cfg = p ∧ s.pc.toNat = p.origin ∧ (∀ r, s.reg r = 0) ∧ s.i = 0 ∧ s.sp.val = 0 ∧
    s.fault = none ∧ (∀ x y, s.pixel x y = false) ∧ s.keys = 0 ∧ s.dt = 0 ∧ s.st = 0 ∧
    (∀ d j : Nat, d < 16 → j < 5 → p.font[d * 5 + j]? = some (s.byte (d * 5 + j))) ∧
    (∀ a, 80 ≤ a → s.byte a = 0)

/-- R177: `Load` places the image at `ORIGIN`, unmodified, and writes nothing else; an over-long image is
refused (U5). -/
def Obligations.LoadPlacesTheImage : Prop :=
  ∀ (image : List Byte) (s : State),
    (image.length ≤ Config.memSize - s.cfg.origin →
      ∃ t : State, loadImage image s = .next t ∧
        (∀ k b, image[k]? = some b → t.byte (s.cfg.origin + k) = b) ∧
        (∀ a, ¬ (s.cfg.origin ≤ a ∧ a < s.cfg.origin + image.length) → t.byte a = s.byte a) ∧
        t = { s with mem := t.mem }) ∧
    (Config.memSize - s.cfg.origin < image.length →
      loadImage image s = .refused (.imageTooLong image.length))

/-! ### Memory -/

/-- R52, R53: within the 4096 addresses a read returns the cell, and a write changes exactly the one cell;
above `0xFFF` both raise `OutOfBounds` with the address (as the 16-bit value the record holds). -/
def Obligations.ReadAfterWrite : Prop :=
  (∀ (s : State) (a : Nat) (b : Byte), a ≤ 0xFFF →
    memRead s a = .ok (s.byte a) ∧
    ∃ t : State, memWrite a b s = .ok t ∧ t = { s with mem := t.mem } ∧ t.byte a = b ∧
      ∀ a', a' ≠ a → t.byte a' = s.byte a') ∧
  (∀ (s : State) (a : Nat) (b : Byte), 0xFFF < a →
    memRead s a = .error (.outOfBounds .mem (BitVec.ofNat 16 a)) ∧
    memWrite a b s = .error (.outOfBounds .mem (BitVec.ofNat 16 a)))

/-- Memory in its canonical form is determined by what its addresses read as: equal memories are equal
data (the model's representation, log entry 4). -/
def Obligations.CanonicalMemoryIsItsReads : Prop :=
  ∀ (font : List Byte) (m m' : Memory), m.wf font = true → m'.wf font = true →
    (∀ a, m.read font a = m'.read font a) → m = m'

/-- R64: a byte written by `store-block` is what the next fetch reads; a program that stores V[0] and
V[1] where `pc` will point executes the word they make. -/
def Obligations.StoredBytesAreFetched : Prop :=
  ∀ (s : State) (x : Reg), x ≠ 0 → s.i.toNat + x.toNat ≤ 0xFFF → s.i = s.pc + 2 →
    ∃ t : State, exec (.storeBlock x) s = .next t ∧ fetch t = .ok (s.reg 0 ++ s.reg 1 : Word)

/-! ### Control transfer -/

/-- R101: `return` pops the newest return address into `pc`; with an empty stack it raises
`StackUnderflow` and changes nothing else. -/
def Obligations.ReturnPopsTheStack : Prop :=
  ∀ s : State,
    (∀ j : Nat, j + 1 = s.sp.val →
      ∃ t : State, exec .ret s = .next t ∧ t.pc = s.slot j ∧ t.sp.val = j ∧
        (∀ k, t.slot k = s.slot k) ∧ s.Frame [] [.stack] t) ∧
    (s.sp.val = 0 → s.fault = none →
      exec .ret s = .next { s with fault := some ⟨.stackUnderflow, s.ppc⟩ })

/-- R102: `jump` sets `pc` to its operand and changes nothing else. -/
def Obligations.JumpSetsThePc : Prop :=
  ∀ (s : State) (nnn : Addr),
    ∃ t : State, exec (.jump nnn) s = .next t ∧ t.pc.toNat = nnn.toNat ∧ s.Frame [] [] t

/-- R103: `call` pushes `pc + 2` and sets `pc`; with a full stack it raises `StackOverflow` and changes
nothing else. -/
def Obligations.CallPushesTheReturnAddress : Prop :=
  ∀ (s : State) (nnn : Addr),
    (s.sp.val < s.cfg.stackDepth →
      ∃ t : State, exec (.call nnn) s = .next t ∧ t.pc.toNat = nnn.toNat ∧
        t.sp.val = s.sp.val + 1 ∧ t.slot s.sp.val = s.pc + 2 ∧
        (∀ k, k ≠ s.sp.val → t.slot k = s.slot k) ∧ s.Frame [] [.stack] t) ∧
    (s.sp.val = s.cfg.stackDepth → s.fault = none →
      exec (.call nnn) s = .next { s with fault := some ⟨.stackOverflow, s.ppc⟩ })

/-- The source's property in R101: `call` followed by `return` restores `pc` to the instruction after the
`call`, and the stack to its height. -/
def Obligations.CallThenReturnComesBack : Prop :=
  ∀ (s : State) (nnn : Addr), s.sp.val < s.cfg.stackDepth →
    ∃ t u : State, exec (.call nnn) s = .next t ∧ exec .ret t = .next u ∧
      u.pc = s.pc + 2 ∧ u.sp.val = s.sp.val ∧ ∀ j, j < s.sp.val → u.slot j = s.slot j

/-- R104, R105: the immediate skips go to `pc + 4` or `pc + 2` and change nothing else. -/
def Obligations.ImmediateSkips : Prop :=
  ∀ (s : State) (x : Reg) (nn : Byte),
    (∃ t : State, exec (.skipEqImm x nn) s = .next t ∧ s.Frame [] [] t ∧
      (s.reg x = nn → t.pc = s.pc + 4) ∧ (s.reg x ≠ nn → t.pc = s.pc + 2)) ∧
    (∃ t : State, exec (.skipNeqImm x nn) s = .next t ∧ s.Frame [] [] t ∧
      (s.reg x ≠ nn → t.pc = s.pc + 4) ∧ (s.reg x = nn → t.pc = s.pc + 2))

/-! ### ALU -/

/-- R111, R112: `set-imm` and `add-imm` write `V[X]` and nothing else, VF included when X is not 15. -/
def Obligations.ImmediateAlu : Prop :=
  ∀ (s : State) (x : Reg) (nn : Byte),
    (∃ t : State, exec (.setImm x nn) s = .next t ∧ t.reg x = nn ∧ t.pc = s.pc + 2 ∧
      s.Frame [x] [] t) ∧
    (∃ t : State, exec (.addImm x nn) s = .next t ∧
      (t.reg x).toNat = ((s.reg x).toNat + nn.toNat) % 256 ∧ t.pc = s.pc + 2 ∧ s.Frame [x] [] t)

/-- R113 to R115: `reg-assign`, `reg-and`, `reg-xor`, bit by bit, with no flag. `pc + 2` is the spec's
decision D8. -/
def Obligations.RegisterMovesAndLogic : Prop :=
  ∀ (s : State) (x y : Reg),
    (∃ t : State, exec (.regAssign x y) s = .next t ∧ t.reg x = s.reg y ∧ t.pc = s.pc + 2 ∧
      s.Frame [x] [] t) ∧
    (∃ t : State, exec (.regAnd x y) s = .next t ∧
      (∀ k, (t.reg x).getLsbD k = ((s.reg x).getLsbD k && (s.reg y).getLsbD k)) ∧
      t.pc = s.pc + 2 ∧ s.Frame [x] [] t) ∧
    (∃ t : State, exec (.regXor x y) s = .next t ∧
      (∀ k, (t.reg x).getLsbD k = ((s.reg x).getLsbD k ^^ (s.reg y).getLsbD k)) ∧
      t.pc = s.pc + 2 ∧ s.Frame [x] [] t)

/-- R116: the low byte of the sum to `V[X]` unless X is 15, then VF is 1 exactly when the sum exceeds
255. `pc + 2` is the spec's decision D8. -/
def Obligations.AddSetsTheCarry : Prop :=
  ∀ (s : State) (x y : Reg),
    ∃ t : State, exec (.regAdd x y) s = .next t ∧
      (x ≠ 15 → (t.reg x).toNat = ((s.reg x).toNat + (s.reg y).toNat) % 256) ∧
      (t.reg 15).toNat = (if 255 < (s.reg x).toNat + (s.reg y).toNat then 1 else 0) ∧
      t.pc = s.pc + 2 ∧ s.Frame [x, 15] [] t

/-- R117, R119: the difference modulo 256 to `V[X]` unless X is 15, then VF is 1 exactly when the minuend
is at least the subtrahend. `pc + 2` is the spec's decision D8. -/
def Obligations.SubtractSetsNotBorrow : Prop :=
  ∀ (s : State) (x y : Reg),
    (∃ t : State, exec (.regSub x y) s = .next t ∧
      (x ≠ 15 → (t.reg x).toNat = ((s.reg x).toNat + 256 - (s.reg y).toNat) % 256) ∧
      (t.reg 15).toNat = (if (s.reg y).toNat ≤ (s.reg x).toNat then 1 else 0) ∧
      t.pc = s.pc + 2 ∧ s.Frame [x, 15] [] t) ∧
    (∃ t : State, exec (.regSubn x y) s = .next t ∧
      (x ≠ 15 → (t.reg x).toNat = ((s.reg y).toNat + 256 - (s.reg x).toNat) % 256) ∧
      (t.reg 15).toNat = (if (s.reg x).toNat ≤ (s.reg y).toNat then 1 else 0) ∧
      t.pc = s.pc + 2 ∧ s.Frame [x, 15] [] t)

/-- R118, R120, R122: the bit shifted out goes to VF, then `V[X]` is shifted; with X = 15 the shift comes
last and acts on the flag, so `reg-shr` leaves 0 and `reg-shl` leaves 2 or 0 (the spec's decision D9, log
entry 7). `pc + 2` is the spec's decision D8. -/
def Obligations.ShiftsByOnePlace : Prop :=
  ∀ (s : State) (x : Reg),
    (∃ t : State, exec (.regShr x) s = .next t ∧
      (x ≠ 15 → (t.reg x).toNat = (s.reg x).toNat / 2 ∧ (t.reg 15).toNat = (s.reg x).toNat % 2) ∧
      (x = 15 → t.reg 15 = 0) ∧ t.pc = s.pc + 2 ∧ s.Frame [x, 15] [] t) ∧
    (∃ t : State, exec (.regShl x) s = .next t ∧
      (x ≠ 15 → (t.reg x).toNat = (s.reg x).toNat * 2 % 256 ∧
        (t.reg 15).toNat = (s.reg x).toNat / 128) ∧
      (x = 15 → (t.reg 15).toNat = (if 0x80 ≤ (s.reg 15).toNat then 2 else 0)) ∧
      t.pc = s.pc + 2 ∧ s.Frame [x, 15] [] t)

/-- R22, R121: after a flag-producing instruction that does not fault VF is exactly 0 or 1 (the shifts of
register 15 itself apart, R122), and an instruction that is none of the six and does not name register 15
as its destination leaves VF alone. -/
def Obligations.FlagRegisterRules : Prop :=
  ∀ (i : Instr) (s t : State), exec i s = .next t → t.fault = s.fault →
    match i with
    | .regAdd _ _ | .regSub _ _ | .regSubn _ _ => t.reg 15 = 0 ∨ t.reg 15 = 1
    | .regShr x | .regShl x => x ≠ 15 → t.reg 15 = 0 ∨ t.reg 15 = 1
    | .draw _ _ n => n = 0 ∨ s.i.toNat + n.toNat ≤ 0x1000 → t.reg 15 = 0 ∨ t.reg 15 = 1
    | .setImm x _ | .addImm x _ | .regAssign x _ | .regAnd x _ | .regXor x _ | .getTimer x
    | .waitKey x | .loadBlock x => x ≠ 15 → t.reg 15 = s.reg 15
    | _ => t.reg 15 = s.reg 15

/-- R113 to R120, R114: with X = Y: the assignment and the AND leave the register, XOR clears it, the
subtractions clear it with VF = 1 (X not 15), and the addition doubles it. -/
def Obligations.SameRegisterTwice : Prop :=
  ∀ (s : State) (x : Reg),
    (∃ t, exec (.regAssign x x) s = .next t ∧ t.reg x = s.reg x) ∧
    (∃ t, exec (.regAnd x x) s = .next t ∧ t.reg x = s.reg x) ∧
    (∃ t, exec (.regXor x x) s = .next t ∧ t.reg x = 0) ∧
    (∃ t, exec (.regSub x x) s = .next t ∧ (x ≠ 15 → t.reg x = 0) ∧ t.reg 15 = 1) ∧
    (∃ t, exec (.regSubn x x) s = .next t ∧ (x ≠ 15 → t.reg x = 0) ∧ t.reg 15 = 1) ∧
    (∃ t, exec (.regAdd x x) s = .next t ∧
      (x ≠ 15 → (t.reg x).toNat = 2 * (s.reg x).toNat % 256) ∧
      (t.reg 15 = 1 ↔ 0x80 ≤ (s.reg x).toNat))

/-! ### Index and memory -/

/-- R130, R132: `set-index` and `font-char-addr` set `I` and write nothing else. -/
def Obligations.SetIndexAndGlyphAddress : Prop :=
  ∀ (s : State) (nnn : Addr) (x : Reg),
    (∃ t, exec (.setIndex nnn) s = .next t ∧ t.i.toNat = nnn.toNat ∧ t.pc = s.pc + 2 ∧
      s.Frame [] [.index] t) ∧
    (∃ t, exec (.fontCharAddr x) s = .next t ∧ t.i.toNat = (s.reg x).toNat * 5 ∧
      t.pc = s.pc + 2 ∧ s.Frame [] [.index] t)

/-- R131: `add-index` adds `V[X]`, widened with zeros, to `I`; no flag is written. The wrap at 16 bits is
the spec's decision D10 (log entry 9). -/
def Obligations.AddIndexWraps : Prop :=
  ∀ (s : State) (x : Reg),
    ∃ t, exec (.addIndex x) s = .next t ∧ t.i.toNat = (s.i.toNat + (s.reg x).toNat) % 65536 ∧
      t.pc = s.pc + 2 ∧ s.Frame [] [.index] t

/-- R133: `store-bcd` with its three addresses in range writes the three decimal digits of `V[X]` and no
other byte. -/
def Obligations.StoreBcdWritesTheDigits : Prop :=
  ∀ (s : State) (x : Reg), s.i.toNat + 2 ≤ 0xFFF →
    ∃ t : State, exec (.storeBcd x) s = .next t ∧
      (t.byte s.i.toNat).toNat = (s.reg x).toNat / 100 ∧
      (t.byte (s.i.toNat + 1)).toNat = (s.reg x).toNat / 10 % 10 ∧
      (t.byte (s.i.toNat + 2)).toNat = (s.reg x).toNat % 10 ∧
      (∀ a, ¬ (s.i.toNat ≤ a ∧ a ≤ s.i.toNat + 2) → t.byte a = s.byte a) ∧
      t.pc = s.pc + 2 ∧ s.Frame [] [.memory] t

/-- R134: `store-block` with its addresses in range writes `V[0..X]` at `I` and up and no other byte, and
`I` advances by `X + 1`. -/
def Obligations.StoreBlockWritesTheRegisters : Prop :=
  ∀ (s : State) (x : Reg), s.i.toNat + x.toNat ≤ 0xFFF →
    ∃ t : State, exec (.storeBlock x) s = .next t ∧
      (∀ r : Reg, r.toNat ≤ x.toNat → t.byte (s.i.toNat + r.toNat) = s.reg r) ∧
      (∀ a, ¬ (s.i.toNat ≤ a ∧ a ≤ s.i.toNat + x.toNat) → t.byte a = s.byte a) ∧
      t.i.toNat = s.i.toNat + x.toNat + 1 ∧ t.pc = s.pc + 2 ∧ s.Frame [] [.memory, .index] t

/-- R135: `load-block` with its addresses in range loads `V[0..X]` and no other register, and `I`
advances by `X + 1`; memory is unchanged. -/
def Obligations.LoadBlockReadsTheRegisters : Prop :=
  ∀ (s : State) (x : Reg), s.i.toNat + x.toNat ≤ 0xFFF →
    ∃ t : State, exec (.loadBlock x) s = .next t ∧
      (∀ r : Reg, r.toNat ≤ x.toNat → t.reg r = s.byte (s.i.toNat + r.toNat)) ∧
      (∀ r : Reg, x.toNat < r.toNat → t.reg r = s.reg r) ∧
      t.i.toNat = s.i.toNat + x.toNat + 1 ∧ t.pc = s.pc + 2 ∧
      s.Frame (regsUpTo x) [.index] t

/-- R54, R193: an out-of-range address of `store-bcd`, `store-block`, `load-block` or `draw` raises
`OutOfBounds` with the lowest such address, `max(I, 0x1000)`, and nothing else changes (the spec's
decisions D12, D28). -/
def Obligations.OutOfRangeBlocksChangeNothing : Prop :=
  ∀ (s : State) (x y : Reg) (n : Nibble), s.fault = none →
    let faulted : State := { s with
      fault := some ⟨.outOfBounds .mem (BitVec.ofNat 16 (max s.i.toNat 0x1000)), s.ppc⟩ }
    (0xFFF < s.i.toNat + 2 → exec (.storeBcd x) s = .next faulted) ∧
    (0xFFF < s.i.toNat + x.toNat → exec (.storeBlock x) s = .next faulted) ∧
    (0xFFF < s.i.toNat + x.toNat → exec (.loadBlock x) s = .next faulted) ∧
    (n ≠ 0 → 0xFFF < s.i.toNat + n.toNat - 1 → exec (.draw x y n) s = .next faulted)

/-- The source's property in R135: `store-block`, then `I` set back, then `load-block` with the same X
restores `V[0..X]` whatever those registers held in between. -/
def Obligations.StoreThenLoadRoundTrips : Prop :=
  ∀ (s t u : State) (x : Reg), s.i.toNat + x.toNat ≤ 0xFFF →
    exec (.storeBlock x) s = .next t → (∀ a, u.byte a = t.byte a) → u.i = s.i →
    ∃ z : State, exec (.loadBlock x) u = .next z ∧
      (∀ r : Reg, r.toNat ≤ x.toNat → z.reg r = s.reg r) ∧ z.i = t.i

/-! ### Display -/

/-- R141: `clear-screen` unsets every pixel, emits one `present`, and writes no register. -/
def Obligations.ClearScreenClears : Prop :=
  ∀ s : State, ∃ t : State, exec .clearScreen s = .next t ∧
    (∀ x y, t.pixel x y = false) ∧ t.presents = s.presents + 1 ∧ t.pc = s.pc + 2 ∧
    s.Frame [] [.display, .present] t

/-- R144 to R146: on a grid of at least 8 columns and 15 rows, a blit of at most 15 rows XORs onto each
pixel the one sprite bit that lands on it (both coordinates wrapped), and reports a collision exactly when
some pixel that was set takes a sprite bit 1. -/
def Obligations.BlitIsTheXorOfTheWrappedSprite : Prop :=
  ∀ (w h x0 y0 : Nat) (rows : List Byte) (g : Grid w h), 8 ≤ w → 15 ≤ h → rows.length ≤ 15 →
    (∀ (r c : Nat) (b : Byte), rows[r]? = some b → c < 8 →
      (blit x0 y0 rows g).1.pixel ((x0 + c) % w) ((y0 + r) % h) =
        (g.pixel ((x0 + c) % w) ((y0 + r) % h) ^^ b.getLsbD (7 - c))) ∧
    (∀ px py : Nat,
      (∀ r c : Nat, r < rows.length → c < 8 → ¬ (px = (x0 + c) % w ∧ py = (y0 + r) % h)) →
      (blit x0 y0 rows g).1.pixel px py = g.pixel px py) ∧
    ((blit x0 y0 rows g).2 = true ↔
      ∃ (r c : Nat) (b : Byte), rows[r]? = some b ∧ c < 8 ∧ b.getLsbD (7 - c) = true ∧
        g.pixel ((x0 + c) % w) ((y0 + r) % h) = true)

/-- R147: two identical blits leave every pixel as it was; when the pixels under the sprite's 1 bits were
all unset and the sprite has a 1 bit, the first reports no collision and the second does; a sprite of
all-zero rows changes nothing and reports no collision both times. -/
def Obligations.BlitTwiceRestores : Prop :=
  ∀ (w h x0 y0 : Nat) (rows : List Byte) (g : Grid w h), 8 ≤ w → 15 ≤ h → rows.length ≤ 15 →
    (blit x0 y0 rows (blit x0 y0 rows g).1).1 = g ∧
    ((∀ (r c : Nat) (b : Byte), rows[r]? = some b → c < 8 → b.getLsbD (7 - c) = true →
        g.pixel ((x0 + c) % w) ((y0 + r) % h) = false) →
      (∃ b ∈ rows, b ≠ 0) →
      (blit x0 y0 rows g).2 = false ∧ (blit x0 y0 rows (blit x0 y0 rows g).1).2 = true) ∧
    ((∀ b ∈ rows, b = 0) → blit x0 y0 rows g = (g, false))

/-- R143: `draw` with its sprite in range (or with N = 0, whatever `I` holds) blits the N bytes at `I` at
the old `V[X]`, `V[Y]`, writes the collision flag to VF, emits one `present`, and changes nothing else. -/
def Obligations.DrawBlitsTheSprite : Prop :=
  ∀ (s : State) (x y : Reg) (n : Nibble), n = 0 ∨ s.i.toNat + n.toNat ≤ 0x1000 →
    ∃ (t : State) (rows : List Byte), exec (.draw x y n) s = .next t ∧
      rows.length = n.toNat ∧
      (∀ r, r < n.toNat → rows[r]? = some (s.byte (s.i.toNat + r))) ∧
      (∀ px py, t.pixel px py =
        (blit (s.reg x).toNat (s.reg y).toNat rows s.display).1.pixel px py) ∧
      (t.reg 15).toNat =
        (if (blit (s.reg x).toNat (s.reg y).toNat rows s.display).2 then 1 else 0) ∧
      t.presents = s.presents + 1 ∧ t.pc = s.pc + 2 ∧ s.Frame [15] [.display, .present] t

/-- R143: `draw` with N = 0 changes no pixel, clears VF and cannot fault, whatever `I` holds. -/
def Obligations.DrawOfNoRows : Prop :=
  ∀ (s : State) (x y : Reg), ∃ t : State, exec (.draw x y 0) s = .next t ∧
    (∀ px py, t.pixel px py = s.pixel px py) ∧ t.reg 15 = 0 ∧ t.presents = s.presents + 1 ∧
    t.pc = s.pc + 2 ∧
    s.Frame [15] [.present] t

/-! ### Keyboard -/

/-- R151, R152: the key skips look at key `V[X]` alone and change nothing but `pc`. -/
def Obligations.KeySkips : Prop :=
  ∀ (s : State) (x : Reg), (s.reg x).toNat ≤ 15 →
    (∃ t : State, exec (.skipKeyEq x) s = .next t ∧ s.Frame [] [] t ∧
      (s.keys.getLsbD (s.reg x).toNat = true → t.pc = s.pc + 4) ∧
      (s.keys.getLsbD (s.reg x).toNat = false → t.pc = s.pc + 2)) ∧
    (∃ t : State, exec (.skipKeyNeq x) s = .next t ∧ s.Frame [] [] t ∧
      (s.keys.getLsbD (s.reg x).toNat = false → t.pc = s.pc + 4) ∧
      (s.keys.getLsbD (s.reg x).toNat = true → t.pc = s.pc + 2))

/-- R151, R152, R193: a key index above 15 raises `OutOfBounds(KEY, V[X])` and changes nothing else (the
spec's decision D17, log entry 8). -/
def Obligations.KeyIndexAboveFifteenFaults : Prop :=
  ∀ (s : State) (x : Reg), s.fault = none → 15 < (s.reg x).toNat →
    ∃ a : Word, a.toNat = (s.reg x).toNat ∧
      exec (.skipKeyEq x) s = .next { s with fault := some ⟨.outOfBounds .key a, s.ppc⟩ } ∧
      exec (.skipKeyNeq x) s = .next { s with fault := some ⟨.outOfBounds .key a, s.ppc⟩ }

/-- R153, R154: with some key pressed, `wait-key` writes to `V[X]` the code of a pressed key, whichever
`KEY_SELECT` chooses (a free value, log entry 6), and advances. -/
def Obligations.WaitKeyReportsAPressedKey : Prop :=
  ∀ (s : State) (x : Reg), s.keys ≠ 0 →
    ∃ t : State, exec (.waitKey x) s = .next t ∧ (t.reg x).toNat ≤ 15 ∧
      s.keys.getLsbD (t.reg x).toNat = true ∧ t.pc = s.pc + 2 ∧ s.Frame [x] [] t

/-- R154: with exactly one key pressed, `wait-key` reports that key, whatever the choice function. -/
def Obligations.WaitKeyReportsTheOnlyKey : Prop :=
  ∀ (s : State) (x : Reg) (k : Nat), k < 16 → (∀ j, s.keys.getLsbD j = decide (j = k)) →
    ∃ t : State, exec (.waitKey x) s = .next t ∧ (t.reg x).toNat = k

/-- R153: with no key pressed, a step of `wait-key` changes nothing but `PPC`, any number of times, until
the host presses a key. -/
def Obligations.WaitKeySuspends : Prop :=
  ∀ (s : State) (w : Word) (x : Reg) (n : Nat), s.fault = none → s.keys = 0 → fetch s = .ok w →
    decode w = .instr (.waitKey x) →
    exec (.waitKey x) s = .next s ∧
    runOps (List.replicate (n + 1) .step) s = .next { s with ppc := s.pc }

/-- R29: whether the core is waiting for a key is a function of memory, `pc` and the keys: it is running,
no key is pressed, and the word at `pc` is a `wait-key`. -/
def Obligations.WaitingIsASuspendedWaitKey : Prop :=
  ∀ s : State, s.waiting = true ↔
    s.fault = none ∧ s.keys = 0 ∧ ∃ w x, fetch s = .ok w ∧ decode w = .instr (.waitKey x)

/-! ### Timers and the host's operations -/

/-- R161 to R163: the timer instructions. -/
def Obligations.TimerInstructions : Prop :=
  ∀ (s : State) (x : Reg),
    (∃ t, exec (.getTimer x) s = .next t ∧ t.reg x = s.dt ∧ t.pc = s.pc + 2 ∧ s.Frame [x] [] t) ∧
    (∃ t, exec (.setTimer x) s = .next t ∧ t.dt = s.reg x ∧ t.pc = s.pc + 2 ∧
      s.Frame [] [.delayTimer] t) ∧
    (∃ t, exec (.setSoundTimer x) s = .next t ∧ t.st = s.reg x ∧ t.pc = s.pc + 2 ∧
      (t.soundActive = true ↔ (s.reg x).toNat ≠ 0) ∧ s.Frame [] [.soundTimer] t)

/-- R174, R33: after `n` ticks and nothing else a timer holds `max(0, old - n)`; a timer at 0 stays there
and nothing but the timers changes. That ST counts is the spec's decision D20. -/
def Obligations.TicksCountDownToZero : Prop :=
  ∀ (s : State) (n : Nat),
    ∃ t : State, runOps (List.replicate n .tick) s = .next t ∧
      t.dt.toNat = s.dt.toNat - n ∧ t.st.toNat = s.st.toNat - n ∧
      t = { s with dt := t.dt, st := t.st }

/-- R175: `SetKey` sets the level of one key and changes nothing else; setting a key to the state it
already has changes nothing. -/
def Obligations.SetKeySetsOneKey : Prop :=
  ∀ (s : State) (code : Nibble) (pressed : Bool),
    (setKey code pressed s).keys.getLsbD code.toNat = pressed ∧
    (∀ j, j ≠ code.toNat → (setKey code pressed s).keys.getLsbD j = s.keys.getLsbD j) ∧
    setKey code pressed s = { s with keys := (setKey code pressed s).keys } ∧
    (s.keys.getLsbD code.toNat = pressed → setKey code pressed s = s)

/-! ### Whole-machine rules -/

/-- R39: the frame of every instruction. When `exec` gives a next state, either the instruction raised a
fault and only the latch changed, or every register and every part of the state that the access table does
not let the instruction write is unchanged; and of memory `store-bcd` changes at most the 3 bytes at `I`,
`store-block` the X + 1 bytes at `I`, and no other instruction any byte. -/
def Obligations.InstructionsWriteOnlyWhatTheTableAllows : Prop :=
  ∀ (i : Instr) (s t : State), exec i s = .next t →
    (∃ r, t = { s with fault := some r }) ∨
    (s.Frame (writesRegs i) (writesParts i) t ∧
      ∀ a, (match i with
          | .storeBcd _ => ¬ (s.i.toNat ≤ a ∧ a ≤ s.i.toNat + 2)
          | .storeBlock x => ¬ (s.i.toNat ≤ a ∧ a ≤ s.i.toNat + blockLength x - 1)
          | _ => True) →
        t.byte a = s.byte a)

/-- R32, R160, R34: no step writes a key, and no step changes a timer unless its instruction is the one
that sets it. -/
def Obligations.StepsLeaveKeysAndTimers : Prop :=
  ∀ s t : State, step s = .next t →
    t.keys = s.keys ∧
    (t.dt ≠ s.dt → ∃ w x, fetch s = .ok w ∧ decode w = .instr (.setTimer x) ∧ t.dt = s.reg x) ∧
    (t.st ≠ s.st → ∃ w x, fetch s = .ok w ∧ decode w = .instr (.setSoundTimer x) ∧ t.st = s.reg x)

/-- R24: where a completed step leaves `pc`: at the operand of a `jump` or `call`, at the popped address
of a `return`, at `pc` or `pc + 2` for `wait-key`, at `pc + 2` or `pc + 4` for a skip, and at `pc + 2` for
every other instruction. -/
def Obligations.WhereEachInstructionLeavesThePc : Prop :=
  ∀ (i : Instr) (s t : State), s.fault = none → exec i s = .next t → t.fault = none →
    match i with
    | .jump nnn | .call nnn => t.pc.toNat = nnn.toNat
    | .ret => ∃ j, j + 1 = s.sp.val ∧ t.pc = s.slot j
    | .skipEqImm _ _ | .skipNeqImm _ _ | .skipKeyEq _ | .skipKeyNeq _ =>
        t.pc = s.pc + 2 ∨ t.pc = s.pc + 4
    | .waitKey _ => t.pc = (if s.keys = 0 then s.pc else s.pc + 2)
    | _ => t.pc = s.pc + 2

/-- R34, R161: the sound timer is never read by an instruction, nor is the count of `present`s (the
model's own field, log entry 5). Two states that differ only there step to states that differ only there;
the step writes the same sound timer in both or leaves it in both, and adds the same to the count. -/
def Obligations.SoundTimerIsNeverRead : Prop :=
  ∀ (s t : State) (b : Byte) (n : Nat), step s = .next t →
    ∃ t' : State, step { s with st := b, presents := n } = .next t' ∧
      t' = { t with st := t'.st, presents := t'.presents } ∧
      ((t.st = s.st ∧ t'.st = b) ∨ t'.st = t.st) ∧
      t'.presents + s.presents = t.presents + n
end

