-- ==== Sys2Proof/Laws/Blit.lean ====
section
/-! SUPPORT. What the Display's loops do (R144 to R146): each pass of the inner loop touches its own pixel
of a row, each pass of the outer loop its own row of the grid, and collision collects what they report. -/
namespace Sys2Proof.Machine

/-! ### Rows and grids -/

theorem rowPixel_set {w : Nat} (row : Vector Bool w) (x j : Nat) (b : Bool) (hx : x < w) :
    rowPixel (row.setIfInBounds x b) j = if j = x then b else rowPixel row j := by
  simp only [rowPixel, Vector.getElem?_setIfInBounds, eq_comm (a := x)]
  split <;> simp_all

/-- Two rows with the same pixels are the same row. -/
theorem row_ext {w : Nat} {a b : Vector Bool w} (h : ∀ x, rowPixel a x = rowPixel b x) : a = b := by
  ext i hi
  simpa [rowPixel, hi] using h i

theorem pixel_eq_rowPixel {w h : Nat} (g : Grid w h) (x y : Nat) (hy : y < h) :
    g.pixel x y = rowPixel g[y] x := by
  simp [Grid.pixel, hy]

theorem pixel_outside {w h : Nat} (g : Grid w h) (x y : Nat) (hy : h ≤ y) : g.pixel x y = false := by
  simp [Grid.pixel, hy]

/-- Two grids with the same pixels are the same grid. -/
theorem grid_ext {w h : Nat} {a b : Grid w h} (hp : ∀ x y, a.pixel x y = b.pixel x y) : a = b := by
  ext1 y hy
  refine row_ext fun x => ?_
  rw [← pixel_eq_rowPixel, ← pixel_eq_rowPixel, hp]

theorem pixel_setRow {w h : Nat} (g : Grid w h) (row : Vector Bool w) (x y py : Nat) (hy : py < h) :
    Grid.pixel (g.setIfInBounds py row) x y = if y = py then rowPixel row x else g.pixel x y := by
  simp only [Grid.pixel, Vector.getElem?_setIfInBounds]
  by_cases e : y = py
  · subst e
    simp [hy]
  · simp [e, Ne.symm e]

theorem pixel_clear (w h x y : Nat) : (Grid.clear w h).pixel x y = false := by
  by_cases hy : y < h
  · rw [pixel_eq_rowPixel _ _ _ hy]
    by_cases hx : x < w <;> simp [Grid.clear, rowPixel, hx]
  · exact pixel_outside _ _ _ (by omega)

/-! ### Distinct coordinates (R146) -/

/-- Consecutive coordinates, fewer of them than the grid has, stay distinct when they wrap. -/
theorem wrap_injective {n w a c c' : Nat} (hn : n ≤ w) (hc : c < n) (hc' : c' < n)
    (h : (a + c) % w = (a + c') % w) : c = c' := by
  have hmod : c ≡ c' [MOD w] := Nat.ModEq.add_left_cancel' a h
  rwa [Nat.ModEq, Nat.mod_eq_of_lt (by omega), Nat.mod_eq_of_lt (by omega)] at hmod

/-! ### The inner loop -/

/-- The first `n` passes of the inner loop. -/
def blitRowPasses {w : Nat} (x0 : Nat) (b : Byte) (n : Nat) (acc : Vector Bool w × Bool) :
    Vector Bool w × Bool :=
  (List.range n).foldl (fun a c => blitPixel (spriteBit b c) ((x0 + c) % w) a) acc

theorem blitRow_eq_passes {w : Nat} (x0 : Nat) (b : Byte) (acc : Vector Bool w × Bool) :
    blitRow x0 b acc = blitRowPasses x0 b 8 acc := rfl

theorem blitRowPasses_succ {w : Nat} (x0 : Nat) (b : Byte) (n : Nat) (acc : Vector Bool w × Bool) :
    blitRowPasses x0 b (n + 1) acc =
      blitPixel (spriteBit b n) ((x0 + n) % w) (blitRowPasses x0 b n acc) := by
  simp [blitRowPasses, List.range_succ, List.foldl_append]

theorem rowPixel_blitPixel {w : Nat} (bit : Bool) (px j : Nat) (acc : Vector Bool w × Bool)
    (h : px < w) : rowPixel (blitPixel bit px acc).1 j =
      if j = px then rowPixel acc.1 px ^^ bit else rowPixel acc.1 j := by
  simp only [blitPixel, rowPixel_set _ _ _ _ h]

/-- A pixel no pass of the inner loop names is unchanged. -/
theorem rowPixel_passes_other {w : Nat} (x0 : Nat) (b : Byte) (n j : Nat) (row : Vector Bool w)
    (coll : Bool) (hw : 0 < w) (hj : ∀ c, c < n → j ≠ (x0 + c) % w) :
    rowPixel (blitRowPasses x0 b n (row, coll)).1 j = rowPixel row j := by
  induction n with
  | zero => rfl
  | succ n ih =>
    rw [blitRowPasses_succ, rowPixel_blitPixel _ _ _ _ (Nat.mod_lt _ hw),
      if_neg (hj n (by omega)), ih fun c hc => hj c (by omega)]

/-- The pixel of pass `c` takes the XOR of its old value and the sprite bit. -/
theorem rowPixel_passes_hit {w : Nat} (x0 : Nat) (b : Byte) (n c : Nat) (row : Vector Bool w)
    (coll : Bool) (hn : n ≤ w) (hc : c < n) :
    rowPixel (blitRowPasses x0 b n (row, coll)).1 ((x0 + c) % w) =
      (rowPixel row ((x0 + c) % w) ^^ spriteBit b c) := by
  induction n with
  | zero => omega
  | succ n ih =>
    rw [blitRowPasses_succ, rowPixel_blitPixel _ _ _ _ (Nat.mod_lt _ (by omega))]
    rcases Nat.lt_or_eq_of_le (Nat.lt_succ_iff.mp hc) with h | h
    · rw [if_neg fun e => absurd (wrap_injective hn hc (by omega) e) (by omega), ih (by omega) h]
    · subst h
      rw [if_pos rfl, rowPixel_passes_other _ _ _ _ _ _ (by omega)]
      exact fun d hd e => absurd (wrap_injective hn hc (by omega) e) (by omega)

/-- The inner loop reports a collision when one was reported before it, or a pass turns off a pixel. -/
theorem passes_collision {w : Nat} (x0 : Nat) (b : Byte) (n : Nat) (row : Vector Bool w)
    (coll : Bool) (hn : n ≤ w) :
    (blitRowPasses x0 b n (row, coll)).2 = true ↔
      coll = true ∨ ∃ c, c < n ∧ spriteBit b c = true ∧ rowPixel row ((x0 + c) % w) = true := by
  induction n with
  | zero => simp [blitRowPasses]
  | succ n ih =>
    have hold : rowPixel (blitRowPasses x0 b n (row, coll)).1 ((x0 + n) % w) =
        rowPixel row ((x0 + n) % w) :=
      rowPixel_passes_other _ _ _ _ _ _ (by omega) fun d hd e =>
        absurd (wrap_injective hn (Nat.lt_succ_self n) (by omega) e) (by omega)
    rw [blitRowPasses_succ]
    simp only [blitPixel, hold, Bool.or_eq_true, ih (by omega), or_assoc]
    refine or_congr_right ⟨?_, ?_⟩
    · rintro (⟨c, hc, h⟩ | h)
      · exact ⟨c, by omega, h⟩
      · refine ⟨n, by omega, ?_⟩
        revert h
        cases spriteBit b n <;> cases rowPixel row ((x0 + n) % w) <;> simp
    · rintro ⟨c, hc, h1, h2⟩
      rcases Nat.lt_or_eq_of_le (Nat.lt_succ_iff.mp hc) with h | h
      · exact .inl ⟨c, h, h1, h2⟩
      · subst h
        simp [h1, h2]

/-! ### The outer loop -/

theorem blitRows_cons {w h : Nat} (x0 y0 r : Nat) (g : Grid w h) (coll : Bool) (b : Byte)
    (bs : List Byte) (hh : 0 < h) :
    blitRows x0 y0 r g coll (b :: bs) =
      blitRows x0 y0 (r + 1)
        (g.setIfInBounds ((y0 + r) % h)
          (blitRow x0 b (g[(y0 + r) % h]'(Nat.mod_lt _ hh), coll)).1)
        (blitRow x0 b (g[(y0 + r) % h]'(Nat.mod_lt _ hh), coll)).2 bs := by
  simp [blitRows, Nat.mod_lt _ hh]

/-- A pixel no row and column of the sprite names is unchanged. -/
theorem pixel_blitRows_other {w h : Nat} (x0 y0 r px py : Nat) (bs : List Byte) (g : Grid w h)
    (coll : Bool) (hw : 8 ≤ w) (hh : 0 < h)
    (hp : ∀ k c, k < bs.length → c < 8 → ¬ (px = (x0 + c) % w ∧ py = (y0 + (r + k)) % h)) :
    (blitRows x0 y0 r g coll bs).1.pixel px py = g.pixel px py := by
  induction bs generalizing r g coll with
  | nil => rfl
  | cons b bs ih =>
    rw [blitRows_cons _ _ _ _ _ _ _ hh, ih, pixel_setRow _ _ _ _ _ (Nat.mod_lt _ hh)]
    · split
      · next e =>
        rw [blitRow_eq_passes, rowPixel_passes_other _ _ _ _ _ _ (by omega), e,
          pixel_eq_rowPixel]
        exact fun c hc e' => hp 0 c (by simp) hc ⟨e', by simpa using e⟩
      · rfl
    · intro k c hk hc
      have := hp (k + 1) c (by simpa using hk) hc
      rwa [show r + (k + 1) = r + 1 + k by omega] at this

/-- The pixel of sprite row `k`, column `c`, takes the XOR of its old value and the sprite bit. -/
theorem pixel_blitRows_hit {w h : Nat} (x0 y0 r k c : Nat) (b : Byte) (bs : List Byte)
    (g : Grid w h) (coll : Bool) (hw : 8 ≤ w) (hh : bs.length ≤ h) (hk : bs[k]? = some b)
    (hc : c < 8) :
    (blitRows x0 y0 r g coll bs).1.pixel ((x0 + c) % w) ((y0 + (r + k)) % h) =
      (g.pixel ((x0 + c) % w) ((y0 + (r + k)) % h) ^^ spriteBit b c) := by
  induction bs generalizing r k g coll with
  | nil => simp at hk
  | cons a bs ih =>
    simp only [List.length_cons] at hh
    have hpos : 0 < h := by omega
    have hdist : ∀ j, j < bs.length → (y0 + r) % h ≠ (y0 + (r + 1 + j)) % h := by
      intro j hj e
      have := wrap_injective (a := y0 + r) (c := 0) (c' := 1 + j) hh (by omega) (by omega)
        (by simpa [Nat.add_assoc] using e)
      omega
    rw [blitRows_cons _ _ _ _ _ _ _ hpos]
    cases k with
    | zero =>
      simp only [List.getElem?_cons_zero, Option.some.injEq] at hk
      subst hk
      simp only [Nat.add_zero]
      rw [pixel_blitRows_other _ _ _ _ _ _ _ _ hw hpos
          (fun j _ hj _ hh' => hdist j hj hh'.2),
        pixel_setRow _ _ _ _ _ (Nat.mod_lt _ hpos), if_pos rfl, blitRow_eq_passes,
        rowPixel_passes_hit _ _ _ _ _ _ hw hc, pixel_eq_rowPixel _ _ _ (Nat.mod_lt _ hpos)]
    | succ k =>
      simp only [List.getElem?_cons_succ] at hk
      have hlt : k < bs.length := (List.getElem?_eq_some_iff.mp hk).1
      have := ih (r := r + 1) (k := k)
        (g := g.setIfInBounds ((y0 + r) % h)
          (blitRow x0 a (g[(y0 + r) % h]'(Nat.mod_lt _ hpos), coll)).1)
        (coll := (blitRow x0 a (g[(y0 + r) % h]'(Nat.mod_lt _ hpos), coll)).2) (by omega) hk
      rw [show r + (k + 1) = r + 1 + k by omega, this,
        pixel_setRow _ _ _ _ _ (Nat.mod_lt _ hpos), if_neg (Ne.symm (hdist k hlt))]

/-- The outer loop reports a collision when one was reported before it, or some sprite bit turns off a
pixel. -/
theorem blitRows_collision {w h : Nat} (x0 y0 r : Nat) (bs : List Byte) (g : Grid w h)
    (coll : Bool) (hw : 8 ≤ w) (hh : bs.length ≤ h) :
    (blitRows x0 y0 r g coll bs).2 = true ↔
      coll = true ∨ ∃ k c b, bs[k]? = some b ∧ c < 8 ∧ spriteBit b c = true ∧
        g.pixel ((x0 + c) % w) ((y0 + (r + k)) % h) = true := by
  induction bs generalizing r g coll with
  | nil => simp [blitRows]
  | cons a bs ih =>
    simp only [List.length_cons] at hh
    have hpos : 0 < h := by omega
    have hold : ∀ k c b, bs[k]? = some b →
        Grid.pixel (g.setIfInBounds ((y0 + r) % h)
          (blitRow x0 a (g[(y0 + r) % h]'(Nat.mod_lt _ hpos), coll)).1)
          ((x0 + c) % w) ((y0 + (r + 1 + k)) % h) =
        g.pixel ((x0 + c) % w) ((y0 + (r + (k + 1))) % h) := by
      intro k c b hk
      have hlt : k < bs.length := (List.getElem?_eq_some_iff.mp hk).1
      rw [pixel_setRow _ _ _ _ _ (Nat.mod_lt _ hpos), if_neg]
      · rw [show r + (k + 1) = r + 1 + k by omega]
      · intro e
        have := wrap_injective (a := y0 + r) (c := 1 + k) (c' := 0) hh (by omega) (by omega)
          (by simpa [Nat.add_assoc] using e)
        omega
    rw [blitRows_cons _ _ _ _ _ _ _ hpos, ih _ _ _ (by omega), blitRow_eq_passes,
      passes_collision _ _ _ _ _ hw, or_assoc]
    refine or_congr_right ⟨?_, ?_⟩
    · rintro (⟨c, hc, h1, h2⟩ | ⟨k, c, b, hk, hc, h1, h2⟩)
      · exact ⟨0, c, a, rfl, hc, h1, by
          rw [Nat.add_zero, pixel_eq_rowPixel _ _ _ (Nat.mod_lt _ hpos)]; exact h2⟩
      · exact ⟨k + 1, c, b, by simpa using hk, hc, h1, (hold k c b hk).symm.trans h2⟩
    · rintro ⟨k, c, b, hk, hc, h1, h2⟩
      cases k with
      | zero =>
        simp only [List.getElem?_cons_zero, Option.some.injEq] at hk
        subst hk
        rw [Nat.add_zero, pixel_eq_rowPixel _ _ _ (Nat.mod_lt _ hpos)] at h2
        exact .inl ⟨c, hc, h1, h2⟩
      | succ k =>
        simp only [List.getElem?_cons_succ] at hk
        exact .inr ⟨k, c, b, hk, hc, h1, (hold k c b hk).trans h2⟩

end Sys2Proof.Machine
end

