-- ==== Sys2Proof/Laws/Decode.lean ====
section
/-! SUPPORT. The fields of the words the encoder makes (R71, R72), and the operand widths (R82). -/
namespace Sys2Proof

/-! ### Fields of an encoded word -/

theorem fieldClass_encodeAddr (c : Nibble) (nnn : Addr) : fieldClass (encodeAddr c nnn) = c :=
  BitVec.extractLsb'_append_eq_left

theorem fieldNNN_encodeAddr (c : Nibble) (nnn : Addr) : fieldNNN (encodeAddr c nnn) = nnn :=
  BitVec.extractLsb'_append_eq_right

/-- The bits of an XBYTE word. -/
theorem getLsbD_encodeXByte (c x : Nibble) (nn : Byte) (k : Nat) :
    (encodeXByte c x nn).getLsbD k =
      if k < 8 then nn.getLsbD k else if k < 12 then x.getLsbD (k - 8) else c.getLsbD (k - 12) := by
  have : (encodeXByte c x nn).getLsbD k = ((c ++ x) ++ nn).getLsbD k := rfl
  rw [this, BitVec.getLsbD_append, BitVec.getLsbD_append]
  split
  · rfl
  · simp only [show (k - 8 < 4) ↔ k < 12 by omega, show k - 8 - 4 = k - 12 by omega]

theorem fieldClass_encodeXByte (c x : Nibble) (nn : Byte) :
    fieldClass (encodeXByte c x nn) = c := by
  refine BitVec.eq_of_getLsbD_eq fun i hi => ?_
  simp only [fieldClass, BitVec.getLsbD_extractLsb', getLsbD_encodeXByte]
  simp [hi, show ¬ 12 + i < 8 by omega]

theorem fieldX_encodeXByte (c x : Nibble) (nn : Byte) : fieldX (encodeXByte c x nn) = x := by
  refine BitVec.eq_of_getLsbD_eq fun i hi => ?_
  simp only [fieldX, BitVec.getLsbD_extractLsb', getLsbD_encodeXByte]
  simp [hi, show 8 + i < 12 by omega]

theorem fieldNN_encodeXByte (c x : Nibble) (nn : Byte) : fieldNN (encodeXByte c x nn) = nn := by
  refine BitVec.eq_of_getLsbD_eq fun i hi => ?_
  simp only [fieldNN, BitVec.getLsbD_extractLsb', getLsbD_encodeXByte]
  simp [hi]

/-- An XYN word is an XBYTE word whose byte is `Y` and `N` (R71: the fields overlap). -/
theorem encodeXYN_eq (c x y n : Nibble) : encodeXYN c x y n = encodeXByte c x (y ++ n) := by
  refine BitVec.eq_of_getLsbD_eq fun k hk => ?_
  have : (encodeXYN c x y n).getLsbD k = (((c ++ x) ++ y) ++ n).getLsbD k := rfl
  rw [this, getLsbD_encodeXByte]
  have h8 : (y ++ n : Byte).getLsbD k = (y ++ n).getLsbD k := rfl
  rw [h8]
  simp only [BitVec.getLsbD_append]
  by_cases h1 : k < 4
  · simp [h1, show k < 8 by omega]
  · by_cases h2 : k < 8
    · simp [h1, h2, show k - 4 < 4 by omega]
    · simp [h1, h2, show ¬ k - 4 < 4 by omega, show k - 4 - 4 = k - 8 by omega,
        show (k - 8 < 4) ↔ k < 12 by omega, show k - 8 - 4 = k - 12 by omega]

theorem fieldClass_encodeXYN (c x y n : Nibble) : fieldClass (encodeXYN c x y n) = c := by
  rw [encodeXYN_eq, fieldClass_encodeXByte]

theorem fieldX_encodeXYN (c x y n : Nibble) : fieldX (encodeXYN c x y n) = x := by
  rw [encodeXYN_eq, fieldX_encodeXByte]

/-- The bits of an XYN word below the `X` field. -/
theorem getLsbD_encodeXYN_low (c x y n : Nibble) (k : Nat) (hk : k < 8) :
    (encodeXYN c x y n).getLsbD k = if k < 4 then n.getLsbD k else y.getLsbD (k - 4) := by
  rw [encodeXYN_eq, getLsbD_encodeXByte, if_pos hk]
  have h8 : (y ++ n : Byte).getLsbD k = (y ++ n).getLsbD k := rfl
  rw [h8, BitVec.getLsbD_append]

theorem fieldY_encodeXYN (c x y n : Nibble) : fieldY (encodeXYN c x y n) = y := by
  refine BitVec.eq_of_getLsbD_eq fun i hi => ?_
  simp only [fieldY, BitVec.getLsbD_extractLsb']
  rw [getLsbD_encodeXYN_low _ _ _ _ _ (by omega)]
  simp [hi]

theorem fieldN_encodeXYN (c x y n : Nibble) : fieldN (encodeXYN c x y n) = n := by
  refine BitVec.eq_of_getLsbD_eq fun i hi => ?_
  simp only [fieldN, BitVec.getLsbD_extractLsb']
  rw [getLsbD_encodeXYN_low _ _ _ _ _ (by omega)]
  simp [hi]

/-! ### Fields of any word, as numbers -/

theorem fieldClass_toNat (w : Word) : (fieldClass w).toNat = w.toNat / 0x1000 := by
  have := w.isLt
  simp only [fieldClass, BitVec.extractLsb'_toNat, Nat.shiftRight_eq_div_pow]
  omega

theorem fieldX_toNat (w : Word) : (fieldX w).toNat = w.toNat / 0x100 % 16 := by
  simp [fieldX, BitVec.extractLsb'_toNat, Nat.shiftRight_eq_div_pow]

theorem fieldY_toNat (w : Word) : (fieldY w).toNat = w.toNat / 0x10 % 16 := by
  simp [fieldY, BitVec.extractLsb'_toNat, Nat.shiftRight_eq_div_pow]

theorem fieldN_toNat (w : Word) : (fieldN w).toNat = w.toNat % 16 := by
  simp [fieldN, BitVec.extractLsb'_toNat]

theorem fieldNN_toNat (w : Word) : (fieldNN w).toNat = w.toNat % 256 := by
  simp [fieldNN, BitVec.extractLsb'_toNat]

theorem fieldNNN_toNat (w : Word) : (fieldNNN w).toNat = w.toNat % 4096 := by
  simp [fieldNNN, BitVec.extractLsb'_toNat]

/-- Every word is the word of its four fields (R71). -/
theorem encodeXYN_fields (w : Word) :
    encodeXYN (fieldClass w) (fieldX w) (fieldY w) (fieldN w) = w := by
  refine BitVec.eq_of_getLsbD_eq fun k hk => ?_
  rw [encodeXYN_eq, getLsbD_encodeXByte]
  have hb : (fieldY w ++ fieldN w : Byte).getLsbD k = (fieldY w ++ fieldN w).getLsbD k := rfl
  rw [hb]
  simp only [BitVec.getLsbD_append, fieldClass, fieldX, fieldY, fieldN, BitVec.getLsbD_extractLsb']
  by_cases h1 : k < 4
  · simp [h1, show k < 8 by omega]
  · by_cases h2 : k < 8
    · simp [h1, h2, show k - 4 < 4 by omega, show 4 + (k - 4) = k by omega]
    · by_cases h3 : k < 12
      · simp [h2, h3, show k - 8 < 4 by omega, show 8 + (k - 8) = k by omega]
      · simp [h2, h3, show k - 12 < 4 by omega, show 12 + (k - 12) = k by omega]

/-- Decoding looks only at the rows of the word's class (R75). -/
theorem find_eq_find_in_class (w : Word) :
    opcodeTable.find? (rowMatches w) =
      (opcodeTable.filter fun r => fieldClass w == r.cls).find? fun r => subMatches r.sub w := by
  have h : rowMatches w = fun r =>
      decide ((fieldClass w == r.cls) = true ∧ subMatches r.sub w = true) := by
    funext r
    simp only [rowMatches, Bool.decide_and, Bool.decide_eq_true]
  rw [List.find?_filter, h]

/-- A decode fault carries the word that was decoded (R75, R191). -/
theorem decode_fault_word {w bad : Word} (h : decode w = .decodeFault bad) : bad = w := by
  unfold decode at h
  split at h
  · cases h
  · exact (Decoded.decodeFault.inj h).symm

/-! ### Bytes of a word -/

/-- A word is its high byte and its low byte (R55). -/
theorem wordOfBytes_bytes (w : Word) : wordOfBytes (highByte w) (lowByte w) = w := by
  refine BitVec.eq_of_getLsbD_eq fun i hi => ?_
  have : (wordOfBytes (highByte w) (lowByte w)).getLsbD i =
      (highByte w ++ lowByte w).getLsbD i := rfl
  rw [this, BitVec.getLsbD_append]
  simp only [highByte, lowByte, BitVec.getLsbD_extractLsb']
  split
  · next h => simp [h]
  · next h => simp [show i - 8 < 8 by omega, show 8 + (i - 8) = i by omega]

/-- Decoding the bytes of a word decodes the word and leaves the rest. -/
theorem decodeBytes_bytesOfWord (w : Word) (rest : List Byte) :
    decodeBytes (bytesOfWord w ++ rest) = some (decode w, rest) := by
  simp [bytesOfWord, decodeBytes, wordOfBytes_bytes]

/-! ### Operand widths -/

/-- The operands of an instruction fit their fields, by their types (R71, R82). -/
theorem wellFormed_of_types (i : Instr) : i.wellFormed = true := by
  cases i <;> simp only [Instr.wellFormed, operandFits, Bool.and_eq_true, decide_eq_true_eq,
    BitVec.isLt, and_self]

end Sys2Proof
end

