-- ==== Sys2Proof/Laws/State.lean ====
section
/-! SUPPORT. One lemma per reader per update of the state, true by `rfl`, and what `raise` leaves: no later
proof unfolds a record update. The readers of the three fields whose types name the configuration are
`slot` and `pixel`, and the number `sp.val`. -/
namespace Sys2Proof.Machine

/-! ### setReg -/

@[simp] theorem setReg_cfg (x : Reg) (b : Byte) (s : State) : (s.setReg x b).cfg = s.cfg := rfl
@[simp] theorem setReg_v (x : Reg) (b : Byte) (s : State) :
    (s.setReg x b).v = s.v.set x.toNat b x.isLt := rfl
@[simp] theorem setReg_pc (x : Reg) (b : Byte) (s : State) : (s.setReg x b).pc = s.pc := rfl
@[simp] theorem setReg_i (x : Reg) (b : Byte) (s : State) : (s.setReg x b).i = s.i := rfl
@[simp] theorem setReg_slot (x : Reg) (b : Byte) (s : State) (j : Nat) :
    (s.setReg x b).slot j = s.slot j := rfl
@[simp] theorem setReg_sp (x : Reg) (b : Byte) (s : State) : (s.setReg x b).sp.val = s.sp.val := rfl
@[simp] theorem setReg_ppc (x : Reg) (b : Byte) (s : State) : (s.setReg x b).ppc = s.ppc := rfl
@[simp] theorem setReg_fault (x : Reg) (b : Byte) (s : State) :
    (s.setReg x b).fault = s.fault := rfl
@[simp] theorem setReg_mem (x : Reg) (b : Byte) (s : State) : (s.setReg x b).mem = s.mem := rfl
@[simp] theorem setReg_byte (x : Reg) (b : Byte) (s : State) (n : Nat) :
    (s.setReg x b).byte n = s.byte n := rfl
@[simp] theorem setReg_pixel (x : Reg) (b : Byte) (s : State) (px py : Nat) :
    (s.setReg x b).pixel px py = s.pixel px py := rfl
@[simp] theorem setReg_keys (x : Reg) (b : Byte) (s : State) : (s.setReg x b).keys = s.keys := rfl
@[simp] theorem setReg_dt (x : Reg) (b : Byte) (s : State) : (s.setReg x b).dt = s.dt := rfl
@[simp] theorem setReg_st (x : Reg) (b : Byte) (s : State) : (s.setReg x b).st = s.st := rfl
@[simp] theorem setReg_presents (x : Reg) (b : Byte) (s : State) :
    (s.setReg x b).presents = s.presents := rfl

/-! ### withV -/

@[simp] theorem withV_cfg (s : State) (w : Vector Byte 16) : (s.withV w).cfg = s.cfg := rfl
@[simp] theorem withV_v (s : State) (w : Vector Byte 16) : (s.withV w).v = w := rfl
@[simp] theorem withV_pc (s : State) (w : Vector Byte 16) : (s.withV w).pc = s.pc := rfl
@[simp] theorem withV_i (s : State) (w : Vector Byte 16) : (s.withV w).i = s.i := rfl
@[simp] theorem withV_slot (s : State) (w : Vector Byte 16) (j : Nat) :
    (s.withV w).slot j = s.slot j := rfl
@[simp] theorem withV_sp (s : State) (w : Vector Byte 16) : (s.withV w).sp.val = s.sp.val := rfl
@[simp] theorem withV_ppc (s : State) (w : Vector Byte 16) : (s.withV w).ppc = s.ppc := rfl
@[simp] theorem withV_fault (s : State) (w : Vector Byte 16) : (s.withV w).fault = s.fault := rfl
@[simp] theorem withV_mem (s : State) (w : Vector Byte 16) : (s.withV w).mem = s.mem := rfl
@[simp] theorem withV_byte (s : State) (w : Vector Byte 16) (n : Nat) :
    (s.withV w).byte n = s.byte n := rfl
@[simp] theorem withV_pixel (s : State) (w : Vector Byte 16) (x y : Nat) :
    (s.withV w).pixel x y = s.pixel x y := rfl
@[simp] theorem withV_keys (s : State) (w : Vector Byte 16) : (s.withV w).keys = s.keys := rfl
@[simp] theorem withV_dt (s : State) (w : Vector Byte 16) : (s.withV w).dt = s.dt := rfl
@[simp] theorem withV_st (s : State) (w : Vector Byte 16) : (s.withV w).st = s.st := rfl
@[simp] theorem withV_presents (s : State) (w : Vector Byte 16) :
    (s.withV w).presents = s.presents := rfl

/-! ### withI -/

@[simp] theorem withI_cfg (s : State) (a : Word) : (s.withI a).cfg = s.cfg := rfl
@[simp] theorem withI_v (s : State) (a : Word) : (s.withI a).v = s.v := rfl
@[simp] theorem withI_pc (s : State) (a : Word) : (s.withI a).pc = s.pc := rfl
@[simp] theorem withI_i (s : State) (a : Word) : (s.withI a).i = a := rfl
@[simp] theorem withI_slot (s : State) (a : Word) (j : Nat) : (s.withI a).slot j = s.slot j := rfl
@[simp] theorem withI_sp (s : State) (a : Word) : (s.withI a).sp.val = s.sp.val := rfl
@[simp] theorem withI_ppc (s : State) (a : Word) : (s.withI a).ppc = s.ppc := rfl
@[simp] theorem withI_fault (s : State) (a : Word) : (s.withI a).fault = s.fault := rfl
@[simp] theorem withI_mem (s : State) (a : Word) : (s.withI a).mem = s.mem := rfl
@[simp] theorem withI_byte (s : State) (a : Word) (n : Nat) : (s.withI a).byte n = s.byte n := rfl
@[simp] theorem withI_pixel (s : State) (a : Word) (x y : Nat) :
    (s.withI a).pixel x y = s.pixel x y := rfl
@[simp] theorem withI_keys (s : State) (a : Word) : (s.withI a).keys = s.keys := rfl
@[simp] theorem withI_dt (s : State) (a : Word) : (s.withI a).dt = s.dt := rfl
@[simp] theorem withI_st (s : State) (a : Word) : (s.withI a).st = s.st := rfl
@[simp] theorem withI_presents (s : State) (a : Word) : (s.withI a).presents = s.presents := rfl

/-! ### withDt -/

@[simp] theorem withDt_cfg (s : State) (b : Byte) : (s.withDt b).cfg = s.cfg := rfl
@[simp] theorem withDt_v (s : State) (b : Byte) : (s.withDt b).v = s.v := rfl
@[simp] theorem withDt_pc (s : State) (b : Byte) : (s.withDt b).pc = s.pc := rfl
@[simp] theorem withDt_i (s : State) (b : Byte) : (s.withDt b).i = s.i := rfl
@[simp] theorem withDt_slot (s : State) (b : Byte) (j : Nat) : (s.withDt b).slot j = s.slot j := rfl
@[simp] theorem withDt_sp (s : State) (b : Byte) : (s.withDt b).sp.val = s.sp.val := rfl
@[simp] theorem withDt_ppc (s : State) (b : Byte) : (s.withDt b).ppc = s.ppc := rfl
@[simp] theorem withDt_fault (s : State) (b : Byte) : (s.withDt b).fault = s.fault := rfl
@[simp] theorem withDt_mem (s : State) (b : Byte) : (s.withDt b).mem = s.mem := rfl
@[simp] theorem withDt_byte (s : State) (b : Byte) (n : Nat) : (s.withDt b).byte n = s.byte n := rfl
@[simp] theorem withDt_pixel (s : State) (b : Byte) (x y : Nat) :
    (s.withDt b).pixel x y = s.pixel x y := rfl
@[simp] theorem withDt_keys (s : State) (b : Byte) : (s.withDt b).keys = s.keys := rfl
@[simp] theorem withDt_dt (s : State) (b : Byte) : (s.withDt b).dt = b := rfl
@[simp] theorem withDt_st (s : State) (b : Byte) : (s.withDt b).st = s.st := rfl
@[simp] theorem withDt_presents (s : State) (b : Byte) : (s.withDt b).presents = s.presents := rfl

/-! ### withSt -/

@[simp] theorem withSt_cfg (s : State) (b : Byte) : (s.withSt b).cfg = s.cfg := rfl
@[simp] theorem withSt_v (s : State) (b : Byte) : (s.withSt b).v = s.v := rfl
@[simp] theorem withSt_pc (s : State) (b : Byte) : (s.withSt b).pc = s.pc := rfl
@[simp] theorem withSt_i (s : State) (b : Byte) : (s.withSt b).i = s.i := rfl
@[simp] theorem withSt_slot (s : State) (b : Byte) (j : Nat) : (s.withSt b).slot j = s.slot j := rfl
@[simp] theorem withSt_sp (s : State) (b : Byte) : (s.withSt b).sp.val = s.sp.val := rfl
@[simp] theorem withSt_ppc (s : State) (b : Byte) : (s.withSt b).ppc = s.ppc := rfl
@[simp] theorem withSt_fault (s : State) (b : Byte) : (s.withSt b).fault = s.fault := rfl
@[simp] theorem withSt_mem (s : State) (b : Byte) : (s.withSt b).mem = s.mem := rfl
@[simp] theorem withSt_byte (s : State) (b : Byte) (n : Nat) : (s.withSt b).byte n = s.byte n := rfl
@[simp] theorem withSt_pixel (s : State) (b : Byte) (x y : Nat) :
    (s.withSt b).pixel x y = s.pixel x y := rfl
@[simp] theorem withSt_keys (s : State) (b : Byte) : (s.withSt b).keys = s.keys := rfl
@[simp] theorem withSt_dt (s : State) (b : Byte) : (s.withSt b).dt = s.dt := rfl
@[simp] theorem withSt_st (s : State) (b : Byte) : (s.withSt b).st = b := rfl
@[simp] theorem withSt_presents (s : State) (b : Byte) : (s.withSt b).presents = s.presents := rfl

/-! ### store -/

@[simp] theorem store_cfg (base : Nat) (bytes : List Byte) (s : State) :
    (s.store base bytes).cfg = s.cfg := rfl
@[simp] theorem store_v (base : Nat) (bytes : List Byte) (s : State) :
    (s.store base bytes).v = s.v := rfl
@[simp] theorem store_pc (base : Nat) (bytes : List Byte) (s : State) :
    (s.store base bytes).pc = s.pc := rfl
@[simp] theorem store_i (base : Nat) (bytes : List Byte) (s : State) :
    (s.store base bytes).i = s.i := rfl
@[simp] theorem store_slot (base : Nat) (bytes : List Byte) (s : State) (j : Nat) :
    (s.store base bytes).slot j = s.slot j := rfl
@[simp] theorem store_sp (base : Nat) (bytes : List Byte) (s : State) :
    (s.store base bytes).sp.val = s.sp.val := rfl
@[simp] theorem store_ppc (base : Nat) (bytes : List Byte) (s : State) :
    (s.store base bytes).ppc = s.ppc := rfl
@[simp] theorem store_fault (base : Nat) (bytes : List Byte) (s : State) :
    (s.store base bytes).fault = s.fault := rfl
@[simp] theorem store_mem (base : Nat) (bytes : List Byte) (s : State) :
    (s.store base bytes).mem = s.mem.writeBytes s.cfg.font base bytes := rfl
@[simp] theorem store_pixel (base : Nat) (bytes : List Byte) (s : State) (x y : Nat) :
    (s.store base bytes).pixel x y = s.pixel x y := rfl
@[simp] theorem store_keys (base : Nat) (bytes : List Byte) (s : State) :
    (s.store base bytes).keys = s.keys := rfl
@[simp] theorem store_dt (base : Nat) (bytes : List Byte) (s : State) :
    (s.store base bytes).dt = s.dt := rfl
@[simp] theorem store_st (base : Nat) (bytes : List Byte) (s : State) :
    (s.store base bytes).st = s.st := rfl
@[simp] theorem store_presents (base : Nat) (bytes : List Byte) (s : State) :
    (s.store base bytes).presents = s.presents := rfl

/-! ### pushed -/

@[simp] theorem pushed_cfg (s : State) (a : Word) (h : s.sp.val < s.cfg.stackDepth) :
    (s.pushed a h).cfg = s.cfg := rfl
@[simp] theorem pushed_v (s : State) (a : Word) (h : s.sp.val < s.cfg.stackDepth) :
    (s.pushed a h).v = s.v := rfl
@[simp] theorem pushed_pc (s : State) (a : Word) (h : s.sp.val < s.cfg.stackDepth) :
    (s.pushed a h).pc = s.pc := rfl
@[simp] theorem pushed_i (s : State) (a : Word) (h : s.sp.val < s.cfg.stackDepth) :
    (s.pushed a h).i = s.i := rfl
@[simp] theorem pushed_sp (s : State) (a : Word) (h : s.sp.val < s.cfg.stackDepth) :
    (s.pushed a h).sp.val = s.sp.val + 1 := rfl
@[simp] theorem pushed_ppc (s : State) (a : Word) (h : s.sp.val < s.cfg.stackDepth) :
    (s.pushed a h).ppc = s.ppc := rfl
@[simp] theorem pushed_fault (s : State) (a : Word) (h : s.sp.val < s.cfg.stackDepth) :
    (s.pushed a h).fault = s.fault := rfl
@[simp] theorem pushed_mem (s : State) (a : Word) (h : s.sp.val < s.cfg.stackDepth) :
    (s.pushed a h).mem = s.mem := rfl
@[simp] theorem pushed_byte (s : State) (a : Word) (h : s.sp.val < s.cfg.stackDepth) (n : Nat) :
    (s.pushed a h).byte n = s.byte n := rfl
@[simp] theorem pushed_pixel (s : State) (a : Word) (h : s.sp.val < s.cfg.stackDepth) (x y : Nat) :
    (s.pushed a h).pixel x y = s.pixel x y := rfl
@[simp] theorem pushed_keys (s : State) (a : Word) (h : s.sp.val < s.cfg.stackDepth) :
    (s.pushed a h).keys = s.keys := rfl
@[simp] theorem pushed_dt (s : State) (a : Word) (h : s.sp.val < s.cfg.stackDepth) :
    (s.pushed a h).dt = s.dt := rfl
@[simp] theorem pushed_st (s : State) (a : Word) (h : s.sp.val < s.cfg.stackDepth) :
    (s.pushed a h).st = s.st := rfl
@[simp] theorem pushed_presents (s : State) (a : Word) (h : s.sp.val < s.cfg.stackDepth) :
    (s.pushed a h).presents = s.presents := rfl

/-- The pushed address is in the slot at the old `SP`; the other slots are unchanged. -/
theorem pushed_slot (s : State) (a : Word) (h : s.sp.val < s.cfg.stackDepth) (j : Nat) :
    (s.pushed a h).slot j = if j = s.sp.val then a else s.slot j := by
  show ((s.stk.set s.sp.val a h)[j]?).getD 0 = _
  rw [Vector.getElem?_set]
  simp only [eq_comm (a := s.sp.val)]
  split <;> rfl

/-! ### popped -/

@[simp] theorem popped_cfg (s : State) : s.popped.cfg = s.cfg := rfl
@[simp] theorem popped_v (s : State) : s.popped.v = s.v := rfl
@[simp] theorem popped_pc (s : State) : s.popped.pc = s.pc := rfl
@[simp] theorem popped_i (s : State) : s.popped.i = s.i := rfl
@[simp] theorem popped_slot (s : State) (j : Nat) : s.popped.slot j = s.slot j := rfl
@[simp] theorem popped_sp (s : State) : s.popped.sp.val = s.sp.val - 1 := rfl
@[simp] theorem popped_ppc (s : State) : s.popped.ppc = s.ppc := rfl
@[simp] theorem popped_fault (s : State) : s.popped.fault = s.fault := rfl
@[simp] theorem popped_mem (s : State) : s.popped.mem = s.mem := rfl
@[simp] theorem popped_byte (s : State) (n : Nat) : s.popped.byte n = s.byte n := rfl
@[simp] theorem popped_pixel (s : State) (x y : Nat) : s.popped.pixel x y = s.pixel x y := rfl
@[simp] theorem popped_keys (s : State) : s.popped.keys = s.keys := rfl
@[simp] theorem popped_dt (s : State) : s.popped.dt = s.dt := rfl
@[simp] theorem popped_st (s : State) : s.popped.st = s.st := rfl
@[simp] theorem popped_presents (s : State) : s.popped.presents = s.presents := rfl

/-! ### withDisplay -/

@[simp] theorem withDisplay_cfg (s : State) (g : Grid s.cfg.displayW s.cfg.displayH) :
    (s.withDisplay g).cfg = s.cfg := rfl
@[simp] theorem withDisplay_v (s : State) (g : Grid s.cfg.displayW s.cfg.displayH) :
    (s.withDisplay g).v = s.v := rfl
@[simp] theorem withDisplay_pc (s : State) (g : Grid s.cfg.displayW s.cfg.displayH) :
    (s.withDisplay g).pc = s.pc := rfl
@[simp] theorem withDisplay_i (s : State) (g : Grid s.cfg.displayW s.cfg.displayH) :
    (s.withDisplay g).i = s.i := rfl
@[simp] theorem withDisplay_slot (s : State) (g : Grid s.cfg.displayW s.cfg.displayH) (j : Nat) :
    (s.withDisplay g).slot j = s.slot j := rfl
@[simp] theorem withDisplay_sp (s : State) (g : Grid s.cfg.displayW s.cfg.displayH) :
    (s.withDisplay g).sp.val = s.sp.val := rfl
@[simp] theorem withDisplay_ppc (s : State) (g : Grid s.cfg.displayW s.cfg.displayH) :
    (s.withDisplay g).ppc = s.ppc := rfl
@[simp] theorem withDisplay_fault (s : State) (g : Grid s.cfg.displayW s.cfg.displayH) :
    (s.withDisplay g).fault = s.fault := rfl
@[simp] theorem withDisplay_mem (s : State) (g : Grid s.cfg.displayW s.cfg.displayH) :
    (s.withDisplay g).mem = s.mem := rfl
@[simp] theorem withDisplay_byte (s : State) (g : Grid s.cfg.displayW s.cfg.displayH) (n : Nat) :
    (s.withDisplay g).byte n = s.byte n := rfl
@[simp] theorem withDisplay_pixel (s : State) (g : Grid s.cfg.displayW s.cfg.displayH) (x y : Nat) :
    (s.withDisplay g).pixel x y = g.pixel x y := rfl
@[simp] theorem withDisplay_keys (s : State) (g : Grid s.cfg.displayW s.cfg.displayH) :
    (s.withDisplay g).keys = s.keys := rfl
@[simp] theorem withDisplay_dt (s : State) (g : Grid s.cfg.displayW s.cfg.displayH) :
    (s.withDisplay g).dt = s.dt := rfl
@[simp] theorem withDisplay_st (s : State) (g : Grid s.cfg.displayW s.cfg.displayH) :
    (s.withDisplay g).st = s.st := rfl
@[simp] theorem withDisplay_presents (s : State) (g : Grid s.cfg.displayW s.cfg.displayH) :
    (s.withDisplay g).presents = s.presents := rfl

/-! ### jumpTo -/

@[simp] theorem jumpTo_cfg (a : Word) (s : State) : (jumpTo a s).cfg = s.cfg := rfl
@[simp] theorem jumpTo_v (a : Word) (s : State) : (jumpTo a s).v = s.v := rfl
@[simp] theorem jumpTo_pc (a : Word) (s : State) : (jumpTo a s).pc = a := rfl
@[simp] theorem jumpTo_i (a : Word) (s : State) : (jumpTo a s).i = s.i := rfl
@[simp] theorem jumpTo_slot (a : Word) (s : State) (j : Nat) : (jumpTo a s).slot j = s.slot j := rfl
@[simp] theorem jumpTo_sp (a : Word) (s : State) : (jumpTo a s).sp.val = s.sp.val := rfl
@[simp] theorem jumpTo_ppc (a : Word) (s : State) : (jumpTo a s).ppc = s.ppc := rfl
@[simp] theorem jumpTo_fault (a : Word) (s : State) : (jumpTo a s).fault = s.fault := rfl
@[simp] theorem jumpTo_mem (a : Word) (s : State) : (jumpTo a s).mem = s.mem := rfl
@[simp] theorem jumpTo_byte (a : Word) (s : State) (n : Nat) : (jumpTo a s).byte n = s.byte n := rfl
@[simp] theorem jumpTo_pixel (a : Word) (s : State) (x y : Nat) :
    (jumpTo a s).pixel x y = s.pixel x y := rfl
@[simp] theorem jumpTo_keys (a : Word) (s : State) : (jumpTo a s).keys = s.keys := rfl
@[simp] theorem jumpTo_dt (a : Word) (s : State) : (jumpTo a s).dt = s.dt := rfl
@[simp] theorem jumpTo_st (a : Word) (s : State) : (jumpTo a s).st = s.st := rfl
@[simp] theorem jumpTo_presents (a : Word) (s : State) : (jumpTo a s).presents = s.presents := rfl

/-! ### advance -/

@[simp] theorem advance_cfg (s : State) : (advance s).cfg = s.cfg := rfl
@[simp] theorem advance_v (s : State) : (advance s).v = s.v := rfl
@[simp] theorem advance_pc (s : State) : (advance s).pc = s.pc + 2 := rfl
@[simp] theorem advance_i (s : State) : (advance s).i = s.i := rfl
@[simp] theorem advance_slot (s : State) (j : Nat) : (advance s).slot j = s.slot j := rfl
@[simp] theorem advance_sp (s : State) : (advance s).sp.val = s.sp.val := rfl
@[simp] theorem advance_ppc (s : State) : (advance s).ppc = s.ppc := rfl
@[simp] theorem advance_fault (s : State) : (advance s).fault = s.fault := rfl
@[simp] theorem advance_mem (s : State) : (advance s).mem = s.mem := rfl
@[simp] theorem advance_byte (s : State) (n : Nat) : (advance s).byte n = s.byte n := rfl
@[simp] theorem advance_pixel (s : State) (x y : Nat) : (advance s).pixel x y = s.pixel x y := rfl
@[simp] theorem advance_keys (s : State) : (advance s).keys = s.keys := rfl
@[simp] theorem advance_dt (s : State) : (advance s).dt = s.dt := rfl
@[simp] theorem advance_st (s : State) : (advance s).st = s.st := rfl
@[simp] theorem advance_presents (s : State) : (advance s).presents = s.presents := rfl

/-! ### skipIf -/

@[simp] theorem skipIf_cfg (c : Bool) (s : State) : (skipIf c s).cfg = s.cfg := rfl
@[simp] theorem skipIf_v (c : Bool) (s : State) : (skipIf c s).v = s.v := rfl
@[simp] theorem skipIf_pc (c : Bool) (s : State) :
    (skipIf c s).pc = if c then s.pc + 4 else s.pc + 2 := rfl
@[simp] theorem skipIf_i (c : Bool) (s : State) : (skipIf c s).i = s.i := rfl
@[simp] theorem skipIf_slot (c : Bool) (s : State) (j : Nat) : (skipIf c s).slot j = s.slot j := rfl
@[simp] theorem skipIf_sp (c : Bool) (s : State) : (skipIf c s).sp.val = s.sp.val := rfl
@[simp] theorem skipIf_ppc (c : Bool) (s : State) : (skipIf c s).ppc = s.ppc := rfl
@[simp] theorem skipIf_fault (c : Bool) (s : State) : (skipIf c s).fault = s.fault := rfl
@[simp] theorem skipIf_mem (c : Bool) (s : State) : (skipIf c s).mem = s.mem := rfl
@[simp] theorem skipIf_byte (c : Bool) (s : State) (n : Nat) : (skipIf c s).byte n = s.byte n := rfl
@[simp] theorem skipIf_pixel (c : Bool) (s : State) (x y : Nat) :
    (skipIf c s).pixel x y = s.pixel x y := rfl
@[simp] theorem skipIf_keys (c : Bool) (s : State) : (skipIf c s).keys = s.keys := rfl
@[simp] theorem skipIf_dt (c : Bool) (s : State) : (skipIf c s).dt = s.dt := rfl
@[simp] theorem skipIf_st (c : Bool) (s : State) : (skipIf c s).st = s.st := rfl
@[simp] theorem skipIf_presents (c : Bool) (s : State) : (skipIf c s).presents = s.presents := rfl

/-! ### emitPresent -/

@[simp] theorem emitPresent_cfg (s : State) : (emitPresent s).cfg = s.cfg := rfl
@[simp] theorem emitPresent_v (s : State) : (emitPresent s).v = s.v := rfl
@[simp] theorem emitPresent_pc (s : State) : (emitPresent s).pc = s.pc := rfl
@[simp] theorem emitPresent_i (s : State) : (emitPresent s).i = s.i := rfl
@[simp] theorem emitPresent_slot (s : State) (j : Nat) : (emitPresent s).slot j = s.slot j := rfl
@[simp] theorem emitPresent_sp (s : State) : (emitPresent s).sp.val = s.sp.val := rfl
@[simp] theorem emitPresent_ppc (s : State) : (emitPresent s).ppc = s.ppc := rfl
@[simp] theorem emitPresent_fault (s : State) : (emitPresent s).fault = s.fault := rfl
@[simp] theorem emitPresent_mem (s : State) : (emitPresent s).mem = s.mem := rfl
@[simp] theorem emitPresent_byte (s : State) (n : Nat) : (emitPresent s).byte n = s.byte n := rfl
@[simp] theorem emitPresent_pixel (s : State) (x y : Nat) :
    (emitPresent s).pixel x y = s.pixel x y := rfl
@[simp] theorem emitPresent_keys (s : State) : (emitPresent s).keys = s.keys := rfl
@[simp] theorem emitPresent_dt (s : State) : (emitPresent s).dt = s.dt := rfl
@[simp] theorem emitPresent_st (s : State) : (emitPresent s).st = s.st := rfl
@[simp] theorem emitPresent_presents (s : State) : (emitPresent s).presents = s.presents + 1 := rfl

/-! ### beginStep -/

@[simp] theorem beginStep_cfg (s : State) : (beginStep s).cfg = s.cfg := rfl
@[simp] theorem beginStep_v (s : State) : (beginStep s).v = s.v := rfl
@[simp] theorem beginStep_pc (s : State) : (beginStep s).pc = s.pc := rfl
@[simp] theorem beginStep_i (s : State) : (beginStep s).i = s.i := rfl
@[simp] theorem beginStep_slot (s : State) (j : Nat) : (beginStep s).slot j = s.slot j := rfl
@[simp] theorem beginStep_sp (s : State) : (beginStep s).sp.val = s.sp.val := rfl
@[simp] theorem beginStep_ppc (s : State) : (beginStep s).ppc = s.pc := rfl
@[simp] theorem beginStep_fault (s : State) : (beginStep s).fault = s.fault := rfl
@[simp] theorem beginStep_mem (s : State) : (beginStep s).mem = s.mem := rfl
@[simp] theorem beginStep_byte (s : State) (n : Nat) : (beginStep s).byte n = s.byte n := rfl
@[simp] theorem beginStep_pixel (s : State) (x y : Nat) :
    (beginStep s).pixel x y = s.pixel x y := rfl
@[simp] theorem beginStep_keys (s : State) : (beginStep s).keys = s.keys := rfl
@[simp] theorem beginStep_dt (s : State) : (beginStep s).dt = s.dt := rfl
@[simp] theorem beginStep_st (s : State) : (beginStep s).st = s.st := rfl
@[simp] theorem beginStep_presents (s : State) : (beginStep s).presents = s.presents := rfl

/-! ### advanceIndex -/

@[simp] theorem advanceIndex_cfg (r : Reg) (s : State) : (advanceIndex r s).cfg = s.cfg := rfl
@[simp] theorem advanceIndex_v (r : Reg) (s : State) : (advanceIndex r s).v = s.v := rfl
@[simp] theorem advanceIndex_pc (r : Reg) (s : State) : (advanceIndex r s).pc = s.pc := rfl
@[simp] theorem advanceIndex_i (r : Reg) (s : State) :
    (advanceIndex r s).i = s.i + BitVec.ofNat 16 (blockLength r) := rfl
@[simp] theorem advanceIndex_slot (r : Reg) (s : State) (j : Nat) :
    (advanceIndex r s).slot j = s.slot j := rfl
@[simp] theorem advanceIndex_sp (r : Reg) (s : State) : (advanceIndex r s).sp.val = s.sp.val := rfl
@[simp] theorem advanceIndex_ppc (r : Reg) (s : State) : (advanceIndex r s).ppc = s.ppc := rfl
@[simp] theorem advanceIndex_fault (r : Reg) (s : State) : (advanceIndex r s).fault = s.fault := rfl
@[simp] theorem advanceIndex_mem (r : Reg) (s : State) : (advanceIndex r s).mem = s.mem := rfl
@[simp] theorem advanceIndex_byte (r : Reg) (s : State) (n : Nat) :
    (advanceIndex r s).byte n = s.byte n := rfl
@[simp] theorem advanceIndex_pixel (r : Reg) (s : State) (x y : Nat) :
    (advanceIndex r s).pixel x y = s.pixel x y := rfl
@[simp] theorem advanceIndex_keys (r : Reg) (s : State) : (advanceIndex r s).keys = s.keys := rfl
@[simp] theorem advanceIndex_dt (r : Reg) (s : State) : (advanceIndex r s).dt = s.dt := rfl
@[simp] theorem advanceIndex_st (r : Reg) (s : State) : (advanceIndex r s).st = s.st := rfl
@[simp] theorem advanceIndex_presents (r : Reg) (s : State) :
    (advanceIndex r s).presents = s.presents := rfl

/-! ### setFlag -/

@[simp] theorem setFlag_cfg (f : FlagSource) (s : State) : (setFlag f s).cfg = s.cfg := rfl
@[simp] theorem setFlag_v (f : FlagSource) (s : State) :
    (setFlag f s).v = s.v.set flagReg.toNat (flagByte (flagBit f)) flagReg.isLt := rfl
@[simp] theorem setFlag_pc (f : FlagSource) (s : State) : (setFlag f s).pc = s.pc := rfl
@[simp] theorem setFlag_i (f : FlagSource) (s : State) : (setFlag f s).i = s.i := rfl
@[simp] theorem setFlag_slot (f : FlagSource) (s : State) (j : Nat) :
    (setFlag f s).slot j = s.slot j := rfl
@[simp] theorem setFlag_sp (f : FlagSource) (s : State) : (setFlag f s).sp.val = s.sp.val := rfl
@[simp] theorem setFlag_ppc (f : FlagSource) (s : State) : (setFlag f s).ppc = s.ppc := rfl
@[simp] theorem setFlag_fault (f : FlagSource) (s : State) : (setFlag f s).fault = s.fault := rfl
@[simp] theorem setFlag_mem (f : FlagSource) (s : State) : (setFlag f s).mem = s.mem := rfl
@[simp] theorem setFlag_byte (f : FlagSource) (s : State) (n : Nat) :
    (setFlag f s).byte n = s.byte n := rfl
@[simp] theorem setFlag_pixel (f : FlagSource) (s : State) (x y : Nat) :
    (setFlag f s).pixel x y = s.pixel x y := rfl
@[simp] theorem setFlag_keys (f : FlagSource) (s : State) : (setFlag f s).keys = s.keys := rfl
@[simp] theorem setFlag_dt (f : FlagSource) (s : State) : (setFlag f s).dt = s.dt := rfl
@[simp] theorem setFlag_st (f : FlagSource) (s : State) : (setFlag f s).st = s.st := rfl
@[simp] theorem setFlag_presents (f : FlagSource) (s : State) :
    (setFlag f s).presents = s.presents := rfl

/-! ### tick -/

@[simp] theorem tick_cfg (s : State) : (tick s).cfg = s.cfg := rfl
@[simp] theorem tick_v (s : State) : (tick s).v = s.v := rfl
@[simp] theorem tick_pc (s : State) : (tick s).pc = s.pc := rfl
@[simp] theorem tick_i (s : State) : (tick s).i = s.i := rfl
@[simp] theorem tick_slot (s : State) (j : Nat) : (tick s).slot j = s.slot j := rfl
@[simp] theorem tick_sp (s : State) : (tick s).sp.val = s.sp.val := rfl
@[simp] theorem tick_ppc (s : State) : (tick s).ppc = s.ppc := rfl
@[simp] theorem tick_fault (s : State) : (tick s).fault = s.fault := rfl
@[simp] theorem tick_mem (s : State) : (tick s).mem = s.mem := rfl
@[simp] theorem tick_byte (s : State) (n : Nat) : (tick s).byte n = s.byte n := rfl
@[simp] theorem tick_pixel (s : State) (x y : Nat) : (tick s).pixel x y = s.pixel x y := rfl
@[simp] theorem tick_keys (s : State) : (tick s).keys = s.keys := rfl
@[simp] theorem tick_dt (s : State) : (tick s).dt = countDown s.dt := rfl
@[simp] theorem tick_st (s : State) : (tick s).st = countDown s.st := rfl
@[simp] theorem tick_presents (s : State) : (tick s).presents = s.presents := rfl

/-! ### setKey -/

@[simp] theorem setKey_cfg (code : Nibble) (p : Bool) (s : State) :
    (setKey code p s).cfg = s.cfg := rfl
@[simp] theorem setKey_v (code : Nibble) (p : Bool) (s : State) : (setKey code p s).v = s.v := rfl
@[simp] theorem setKey_pc (code : Nibble) (p : Bool) (s : State) :
    (setKey code p s).pc = s.pc := rfl
@[simp] theorem setKey_i (code : Nibble) (p : Bool) (s : State) : (setKey code p s).i = s.i := rfl
@[simp] theorem setKey_slot (code : Nibble) (p : Bool) (s : State) (j : Nat) :
    (setKey code p s).slot j = s.slot j := rfl
@[simp] theorem setKey_sp (code : Nibble) (p : Bool) (s : State) :
    (setKey code p s).sp.val = s.sp.val := rfl
@[simp] theorem setKey_ppc (code : Nibble) (p : Bool) (s : State) :
    (setKey code p s).ppc = s.ppc := rfl
@[simp] theorem setKey_fault (code : Nibble) (p : Bool) (s : State) :
    (setKey code p s).fault = s.fault := rfl
@[simp] theorem setKey_mem (code : Nibble) (p : Bool) (s : State) :
    (setKey code p s).mem = s.mem := rfl
@[simp] theorem setKey_byte (code : Nibble) (p : Bool) (s : State) (n : Nat) :
    (setKey code p s).byte n = s.byte n := rfl
@[simp] theorem setKey_pixel (code : Nibble) (p : Bool) (s : State) (x y : Nat) :
    (setKey code p s).pixel x y = s.pixel x y := rfl
@[simp] theorem setKey_keys (code : Nibble) (p : Bool) (s : State) :
    (setKey code p s).keys = setKeyBit s.keys code p := rfl
@[simp] theorem setKey_dt (code : Nibble) (p : Bool) (s : State) :
    (setKey code p s).dt = s.dt := rfl
@[simp] theorem setKey_st (code : Nibble) (p : Bool) (s : State) :
    (setKey code p s).st = s.st := rfl
@[simp] theorem setKey_presents (code : Nibble) (p : Bool) (s : State) :
    (setKey code p s).presents = s.presents := rfl

/-! ### raise -/

@[simp] theorem raise_cfg (c : FaultCause) (s : State) :
    (raise c s).cfg = s.cfg := by
  unfold raise; split <;> rfl
@[simp] theorem raise_v (c : FaultCause) (s : State) :
    (raise c s).v = s.v := by
  unfold raise; split <;> rfl
@[simp] theorem raise_pc (c : FaultCause) (s : State) :
    (raise c s).pc = s.pc := by
  unfold raise; split <;> rfl
@[simp] theorem raise_i (c : FaultCause) (s : State) :
    (raise c s).i = s.i := by
  unfold raise; split <;> rfl
@[simp] theorem raise_slot (c : FaultCause) (s : State) (j : Nat) :
    (raise c s).slot j = s.slot j := by
  unfold raise; split <;> rfl
@[simp] theorem raise_sp (c : FaultCause) (s : State) :
    (raise c s).sp.val = s.sp.val := by
  unfold raise; split <;> rfl
@[simp] theorem raise_ppc (c : FaultCause) (s : State) :
    (raise c s).ppc = s.ppc := by
  unfold raise; split <;> rfl
@[simp] theorem raise_mem (c : FaultCause) (s : State) :
    (raise c s).mem = s.mem := by
  unfold raise; split <;> rfl
@[simp] theorem raise_byte (c : FaultCause) (s : State) (n : Nat) :
    (raise c s).byte n = s.byte n := by
  unfold raise; split <;> rfl
@[simp] theorem raise_pixel (c : FaultCause) (s : State) (x y : Nat) :
    (raise c s).pixel x y = s.pixel x y := by
  unfold raise; split <;> rfl
@[simp] theorem raise_keys (c : FaultCause) (s : State) :
    (raise c s).keys = s.keys := by
  unfold raise; split <;> rfl
@[simp] theorem raise_dt (c : FaultCause) (s : State) :
    (raise c s).dt = s.dt := by
  unfold raise; split <;> rfl
@[simp] theorem raise_st (c : FaultCause) (s : State) :
    (raise c s).st = s.st := by
  unfold raise; split <;> rfl
@[simp] theorem raise_presents (c : FaultCause) (s : State) :
    (raise c s).presents = s.presents := by
  unfold raise; split <;> rfl

/-- On a core with no fault latched `raise` sets the latch to the record and nothing else (R196). -/
theorem raise_eq (c : FaultCause) (s : State) (h : s.fault = none) :
    raise c s = { s with fault := some ⟨c, s.ppc⟩ } := by
  simp [raise, h]

/-- `raise` leaves a record latched: the first one (R197). -/
theorem raise_latched (c : FaultCause) (s : State) :
    ∃ r, raise c s = { s with fault := some r } := by
  unfold raise
  split
  · exact ⟨_, rfl⟩
  · next r h => exact ⟨r, by cases s; simp_all⟩

theorem raise_fault_ne_none (c : FaultCause) (s : State) : (raise c s).fault ≠ none := by
  obtain ⟨r, h⟩ := raise_latched c s
  simp [h]

end Sys2Proof.Machine
end

