-- ==== Sys2Proof/Laws/Registers.lean ====
section
/-! SUPPORT. What the register operations do: reading after a write (R21), the flag write (R121), and the
ascending load of a block of registers (R135). -/
namespace Sys2Proof.Machine

theorem reg_setReg_self (x : Reg) (b : Byte) (s : State) : (s.setReg x b).reg x = b := by
  simp [State.reg]

theorem reg_setReg_other (x r : Reg) (b : Byte) (s : State) (h : r ≠ x) :
    (s.setReg x b).reg r = s.reg r := by
  have : x.toNat ≠ r.toNat := fun e => h (BitVec.eq_of_toNat_eq e.symm)
  simp [State.reg, this]

theorem reg_setReg (x r : Reg) (b : Byte) (s : State) :
    (s.setReg x b).reg r = if r = x then b else s.reg r := by
  split
  · next h => rw [h, reg_setReg_self]
  · next h => exact reg_setReg_other x r b s h

/-- Two states with the same registers read the same. -/
theorem reg_congr {s t : State} (h : t.v = s.v) (r : Reg) : t.reg r = s.reg r := by
  simp [State.reg, h]

@[simp] theorem reg_advance (s : State) (r : Reg) : (advance s).reg r = s.reg r := rfl
@[simp] theorem reg_jumpTo (a : Word) (s : State) (r : Reg) : (jumpTo a s).reg r = s.reg r := rfl
@[simp] theorem reg_skipIf (c : Bool) (s : State) (r : Reg) : (skipIf c s).reg r = s.reg r := rfl
@[simp] theorem reg_emitPresent (s : State) (r : Reg) : (emitPresent s).reg r = s.reg r := rfl
@[simp] theorem reg_advanceIndex (x : Reg) (s : State) (r : Reg) :
    (advanceIndex x s).reg r = s.reg r := rfl
@[simp] theorem reg_withI (s : State) (a : Word) (r : Reg) : (s.withI a).reg r = s.reg r := rfl
@[simp] theorem reg_withDt (s : State) (b : Byte) (r : Reg) : (s.withDt b).reg r = s.reg r := rfl
@[simp] theorem reg_withSt (s : State) (b : Byte) (r : Reg) : (s.withSt b).reg r = s.reg r := rfl
@[simp] theorem reg_store (base : Nat) (bytes : List Byte) (s : State) (r : Reg) :
    (s.store base bytes).reg r = s.reg r := rfl
@[simp] theorem reg_pushed (s : State) (a : Word) (h : s.sp.val < s.cfg.stackDepth) (r : Reg) :
    (s.pushed a h).reg r = s.reg r := rfl
@[simp] theorem reg_popped (s : State) (r : Reg) : s.popped.reg r = s.reg r := rfl
@[simp] theorem reg_withDisplay (s : State) (g : Grid s.cfg.displayW s.cfg.displayH) (r : Reg) :
    (s.withDisplay g).reg r = s.reg r := rfl
@[simp] theorem reg_raise (c : FaultCause) (s : State) (r : Reg) : (raise c s).reg r = s.reg r :=
  reg_congr (raise_v c s) r

/-- The flag write replaces VF and leaves every other register. -/
theorem reg_setFlag (f : FlagSource) (r : Reg) (s : State) :
    (setFlag f s).reg r = if r = 15 then flagByte (flagBit f) else s.reg r :=
  reg_setReg 15 r _ s

theorem flagByte_toNat (b : Bool) : (flagByte b).toNat = if b then 1 else 0 := by
  cases b <;> rfl

/-- The carry bit is 1 exactly when the sum exceeds 255 (R116). -/
theorem flagBit_carry (a b : Byte) : flagBit (.carry a b) = decide (255 < a.toNat + b.toNat) := by
  have ha := a.isLt
  have hb := b.isLt
  simp only [flagBit, sum9, BitVec.getLsbD, Nat.testBit, BitVec.toNat_add, BitVec.toNat_setWidth,
    Nat.shiftRight_eq_div_pow, Nat.one_and_eq_mod_two]
  rw [Bool.eq_iff_iff]
  simp
  omega

/-- The low 8 bits of the 9-bit sum are the sum modulo 256 (R116). -/
theorem sum9_low (a b : Byte) : ((sum9 a b).setWidth 8).toNat = (a.toNat + b.toNat) % 256 := by
  have ha := a.isLt
  have hb := b.isLt
  simp only [sum9, BitVec.toNat_setWidth, BitVec.toNat_add]
  omega

/-- A read of a register file put in place. -/
@[simp] theorem reg_withV (s : State) (v : Vector Byte 16) (r : Reg) :
    (s.withV v).reg r = v[r.toNat]'r.isLt := rfl

/-- The registers after an ascending load: those the bytes reach hold them, the others are unchanged. -/
theorem loadRegs_getElem (bytes : List Byte) (v : Vector Byte 16) (k j : Nat) (h : j < 16) :
    (loadRegs v k bytes)[j] = if k ≤ j then (bytes[j - k]?).getD v[j] else v[j] := by
  induction bytes generalizing v k with
  | nil => simp [loadRegs]
  | cons b bs ih =>
    simp only [loadRegs, ih, Vector.getElem_setIfInBounds]
    rcases Nat.lt_trichotomy j k with h1 | h1 | h1
    · simp [show ¬ k ≤ j by omega, show ¬ k + 1 ≤ j by omega, show k ≠ j by omega]
    · subst h1
      simp
    · obtain ⟨d, rfl⟩ : ∃ d, j = k + 1 + d := ⟨j - (k + 1), by omega⟩
      simp [show k + 1 + d - k = d + 1 by omega, show k ≤ k + 1 + d by omega,
        show k ≠ k + 1 + d by omega]

end Sys2Proof.Machine
end

