-- ==== Sys2Proof/Laws/Memory.lean ====
section
/-! SUPPORT. What the memory operations do: reading after a write, the canonical form, runs of bytes, and
the bounds checks (R51 to R54). The reading lemmas hold of every list of cells, canonical or not. -/
namespace Sys2Proof.Machine

/-! ### One byte -/

theorem Memory.read_filter (font : List Byte) (m : Memory) (a a' : Nat) :
    Memory.read font (m.filter fun c => c.1 != a) a' =
      if a' = a then Memory.background font a else m.read font a' := by
  induction m with
  | nil => split <;> simp_all [Memory.read]
  | cons c rest ih =>
    by_cases h : c.1 = a
    · simp only [List.filter, h, bne_self_eq_false, ih, Memory.read]
      split <;> simp_all [eq_comm]
    · simp only [List.filter, bne_iff_ne.mpr h, Memory.read, ih]
      split <;> split <;> simp_all

theorem Memory.read_insert (font : List Byte) (m : Memory) (a a' : Nat) (b : Byte)
    (hm : ∀ c ∈ m, c.1 ≠ a) :
    (Memory.insert m a b).read font a' = if a' = a then b else m.read font a' := by
  induction m with
  | nil => simp [Memory.insert, Memory.read, eq_comm]
  | cons c rest ih =>
    have hc : c.1 ≠ a := hm c (by simp)
    have ih := ih fun d hd => hm d (by simp [hd])
    simp only [Memory.insert]
    split
    · simp [Memory.read, eq_comm]
    · simp only [Memory.read, ih]
      split <;> split <;> simp_all

/-- A read after a write: the written byte at its address, the old byte everywhere else (R53, R59). -/
theorem Memory.read_write (font : List Byte) (m : Memory) (a a' : Nat) (b : Byte) :
    (m.write font a b).read font a' = if a' = a then b else m.read font a' := by
  simp only [Memory.write]
  split
  · next h => rw [Memory.read_filter, h]
  · rw [Memory.read_insert _ _ _ _ _ (by simp), Memory.read_filter]
    split <;> simp_all

/-! ### The canonical form -/

theorem Memory.wfFrom_cons (font : List Byte) (lo : Nat) (c : Host.Cell) (rest : Memory) :
    Memory.wfFrom font lo (c :: rest) = true ↔
      lo ≤ c.1 ∧ c.1 < Config.memSize ∧ c.2 ≠ Memory.background font c.1 ∧
      Memory.wfFrom font (c.1 + 1) rest = true := by
  simp [Memory.wfFrom, and_assoc]

theorem Memory.wfFrom_mono {font : List Byte} {lo lo' : Nat} (h : lo' ≤ lo) {m : Memory}
    (hm : Memory.wfFrom font lo m = true) : Memory.wfFrom font lo' m = true := by
  cases m with
  | nil => rfl
  | cons c rest =>
    rw [Memory.wfFrom_cons] at hm ⊢
    exact ⟨by omega, hm.2⟩

theorem Memory.wfFrom_filter {font : List Byte} (p : Host.Cell → Bool) {lo : Nat} {m : Memory}
    (hm : Memory.wfFrom font lo m = true) : Memory.wfFrom font lo (m.filter p) = true := by
  induction m generalizing lo with
  | nil => rfl
  | cons c rest ih =>
    rw [Memory.wfFrom_cons] at hm
    simp only [List.filter]
    split
    · rw [Memory.wfFrom_cons]
      exact ⟨hm.1, hm.2.1, hm.2.2.1, ih hm.2.2.2⟩
    · exact Memory.wfFrom_mono (by omega) (ih hm.2.2.2)

theorem Memory.wfFrom_insert {font : List Byte} {lo a : Nat} {b : Byte} {m : Memory} (hlo : lo ≤ a)
    (ha : a < Config.memSize) (hb : b ≠ Memory.background font a) (hm : Memory.wfFrom font lo m = true)
    (hne : ∀ c ∈ m, c.1 ≠ a) : Memory.wfFrom font lo (Memory.insert m a b) = true := by
  induction m generalizing lo with
  | nil => simp [Memory.insert, Memory.wfFrom, hlo, ha, hb]
  | cons c rest ih =>
    have hc : c.1 ≠ a := hne c (by simp)
    rw [Memory.wfFrom_cons] at hm
    simp only [Memory.insert]
    split
    · simp only [Memory.wfFrom_cons]
      exact ⟨hlo, ha, hb, by omega, hm.2⟩
    · rw [Memory.wfFrom_cons]
      exact ⟨hm.1, hm.2.1, hm.2.2.1, ih (by omega) hm.2.2.2 fun d hd => hne d (by simp [hd])⟩

/-- A write inside the 4096 bytes keeps the canonical form. -/
theorem Memory.wf_write {font : List Byte} {m : Memory} {a : Nat} (b : Byte) (ha : a < Config.memSize)
    (hm : m.wf font = true) : (m.write font a b).wf font = true := by
  simp only [Memory.write]
  split
  · exact Memory.wfFrom_filter _ hm
  · next h =>
    exact Memory.wfFrom_insert (Nat.zero_le a) ha h (Memory.wfFrom_filter _ hm) (by simp)

/-! ### Runs of bytes -/

/-- A read after an ascending write of bytes: the byte written there, or the old one. -/
theorem Memory.read_writeBytes (font bytes : List Byte) (m : Memory) (base a : Nat) :
    (m.writeBytes font base bytes).read font a =
      if base ≤ a then (bytes[a - base]?).getD (m.read font a) else m.read font a := by
  induction bytes generalizing m base with
  | nil => simp [Memory.writeBytes]
  | cons b bs ih =>
    simp only [Memory.writeBytes, ih, Memory.read_write]
    rcases Nat.lt_trichotomy a base with h | h | h
    · simp [show ¬ base ≤ a by omega, show ¬ base + 1 ≤ a by omega, show a ≠ base by omega]
    · subst h
      simp
    · obtain ⟨d, rfl⟩ : ∃ d, a = base + 1 + d := ⟨a - (base + 1), by omega⟩
      simp [show base + 1 + d - base = d + 1 by omega, show base ≤ base + 1 + d by omega,
        show base + 1 + d ≠ base by omega]

/-- Writing bytes inside the 4096 keeps the canonical form. -/
theorem Memory.wf_writeBytes {font : List Byte} (bytes : List Byte) {m : Memory} {base : Nat}
    (h : base + bytes.length ≤ Config.memSize) (hm : m.wf font = true) :
    (m.writeBytes font base bytes).wf font = true := by
  induction bytes generalizing m base with
  | nil => exact hm
  | cons b bs ih =>
    simp only [List.length_cons] at h
    exact ih (by omega) (Memory.wf_write b (by omega) hm)

/-! ### The bytes of a state -/

/-- Outside the bytes stored nothing changes. -/
theorem byte_store_outside (bytes : List Byte) (s : State) (base a : Nat)
    (h : ¬ (base ≤ a ∧ a < base + bytes.length)) : (s.store base bytes).byte a = s.byte a := by
  simp only [State.byte, State.store, Memory.read_writeBytes]
  split
  · rw [List.getElem?_eq_none (by omega)]
    rfl
  · rfl

/-- Byte `k` of the bytes stored is read back. -/
theorem byte_store_inside (bytes : List Byte) (s : State) (base k : Nat) (b : Byte)
    (h : bytes[k]? = some b) : (s.store base bytes).byte (base + k) = b := by
  simp [State.byte, State.store, Memory.read_writeBytes, h]

/-- Storing bytes inside the 4096 keeps the canonical form. -/
theorem wf_store {bytes : List Byte} {s : State} {base : Nat}
    (h : base + bytes.length ≤ Config.memSize) (hm : s.mem.wf s.cfg.font = true) :
    (s.store base bytes).mem.wf s.cfg.font = true :=
  Memory.wf_writeBytes bytes h hm

/-- Two states with the same configuration and memory read the same. -/
theorem byte_congr {s t : State} (hc : t.cfg = s.cfg) (hm : t.mem = s.mem) (a : Nat) :
    t.byte a = s.byte a := by
  simp [State.byte, hc, hm]

@[simp] theorem length_bytes (s : State) (base n : Nat) : (s.bytes base n).length = n := by
  simp [State.bytes]

theorem getElem?_bytes (s : State) (base n k : Nat) :
    (s.bytes base n)[k]? = if k < n then some (s.byte (base + k)) else none := by
  simp only [State.bytes, List.getElem?_map]
  split
  · next h => simp [List.getElem?_range h]
  · next h => rw [List.getElem?_eq_none (by simpa using h)]; rfl

/-! ### The bounds checks -/

/-- The check passes exactly when the run is empty or its last address is at most `0xFFF` (R54). -/
theorem checkSpan_eq_none (base n : Nat) :
    checkSpan base n = none ↔ n = 0 ∨ base + n ≤ 0x1000 := by
  simp only [checkSpan, Config.memSize]
  split <;> simp_all

/-- A check that fails reports the lowest out-of-range address (R54, R193). -/
theorem checkSpan_eq_some (base n : Nat) (h : n ≠ 0) (h' : 0x1000 < base + n) :
    checkSpan base n = some (.outOfBounds .mem (BitVec.ofNat 16 (max base 0x1000))) := by
  simp only [checkSpan, Config.memSize, memFault]
  rw [if_neg (by omega)]

/-- The fault of a check is always an address above `0xFFF` (R193). -/
theorem checkSpan_fault {base n : Nat} {f : FaultCause} (hb : base < 65536)
    (h : checkSpan base n = some f) :
    ∃ info : Word, f = .outOfBounds .mem info ∧ 0x1000 ≤ info.toNat := by
  simp only [checkSpan, Config.memSize, memFault] at h
  split at h
  · cases h
  · cases h
    exact ⟨_, rfl, by simp only [BitVec.toNat_ofNat]; omega⟩

theorem inMemory_iff (a : Nat) : inMemory a = true ↔ a ≤ 0xFFF := by
  simp only [inMemory, Config.memSize, decide_eq_true_eq]
  omega

theorem memRead_ok (s : State) (a : Nat) (h : a ≤ 0xFFF) : memRead s a = .ok (s.byte a) := by
  simp [memRead, (inMemory_iff a).mpr h]

theorem memRead_error (s : State) (a : Nat) (h : 0xFFF < a) :
    memRead s a = .error (.outOfBounds .mem (BitVec.ofNat 16 a)) := by
  have : inMemory a = false := by
    rw [Bool.eq_false_iff, Ne, inMemory_iff]
    omega
  simp [memRead, this, memFault]

/-- A fetch in range (R55). -/
theorem fetch_ok (s : State) (h : s.pc.toNat ≤ 0xFFE) :
    fetch s = .ok (s.byte s.pc.toNat ++ s.byte (s.pc.toNat + 1)) := by
  simp only [fetch, memRead_ok s s.pc.toNat (by omega), memRead_ok s (s.pc.toNat + 1) (by omega)]
  rfl

/-- A fetch out of range: `OutOfBounds` with the lowest offending address (R55, R193). -/
theorem fetch_error (s : State) (h : 0xFFE < s.pc.toNat) :
    fetch s = .error (.outOfBounds .mem (BitVec.ofNat 16 (max s.pc.toNat 0x1000))) := by
  unfold fetch
  by_cases h1 : s.pc.toNat ≤ 0xFFF
  · rw [memRead_ok s _ h1, memRead_error s (s.pc.toNat + 1) (by omega)]
    simp only [show s.pc.toNat + 1 = max s.pc.toNat 0x1000 by omega]
  · rw [memRead_error s _ (by omega), show max s.pc.toNat 0x1000 = s.pc.toNat by omega]

/-- The fetch reads `pc` and the bytes of memory only. -/
theorem fetch_congr {s t : State} (hp : t.pc = s.pc) (hm : ∀ a, t.byte a = s.byte a) :
    fetch t = fetch s := by
  simp [fetch, memRead, hp, hm]

@[simp] theorem fetch_beginStep (s : State) : fetch (beginStep s) = fetch s := rfl

end Sys2Proof.Machine
end

