-- ==== Sys2Proof/Laws/Step.lean ====
section
/-! SUPPORT. What the stack operations, the execute phase, the commit phase and a step can do, each said
once. -/
namespace Sys2Proof.Machine

/-! ### The return stack (R26) -/

/-- Everything a push can do: with room it gives `State.pushed`, else nothing. -/
theorem pushReturn_some {a : Word} {s t : State} (h : pushReturn a s = some t) :
    ∃ hlt : s.sp.val < s.cfg.stackDepth, t = s.pushed a hlt := by
  unfold pushReturn at h
  split at h
  · next hlt => exact ⟨hlt, (Option.some.inj h).symm⟩
  · cases h

theorem pushReturn_eq (a : Word) (s : State) (h : s.sp.val < s.cfg.stackDepth) :
    pushReturn a s = some (s.pushed a h) := by
  simp [pushReturn, h]

theorem pushReturn_none (a : Word) (s : State) :
    pushReturn a s = none ↔ s.sp.val = s.cfg.stackDepth := by
  have hle := Nat.lt_succ_iff.mp s.sp.isLt
  by_cases h : s.sp.val < s.cfg.stackDepth
  · simp [pushReturn, h, Nat.ne_of_lt h]
  · simp [pushReturn, Nat.le_antisymm hle (Nat.not_lt.mp h)]

/-- Everything a pop can do: with an address held it gives the newest and `State.popped`, else
nothing. -/
theorem popReturn_some {s t : State} {a : Word} (h : popReturn s = some (a, t)) :
    0 < s.sp.val ∧ a = s.slot (s.sp.val - 1) ∧ t = s.popped := by
  unfold popReturn at h
  split at h
  · cases h
  · next hpos =>
    cases h
    exact ⟨Nat.pos_of_ne_zero hpos, rfl, rfl⟩

theorem popReturn_eq (s : State) (j : Nat) (h : j + 1 = s.sp.val) :
    popReturn s = some (s.slot j, s.popped) := by
  simp [popReturn, ← h]

theorem popReturn_none (s : State) : popReturn s = none ↔ s.sp.val = 0 := by
  by_cases h : s.sp.val = 0 <;> simp [popReturn, h]

/-! ### The execute phase -/

/-- The execute phase always leaves a state. -/
theorem exec_next (i : Instr) (s : State) : ∃ t, exec i s = .next t := by
  cases i <;>
    simp only [exec, execRet, execCall, execDraw, execSkipKeyEq, execSkipKeyNeq, execWaitKey,
      execStoreBcd, execStoreBlock, execLoadBlock] <;>
    first
      | exact ⟨_, rfl⟩
      | (split <;> exact ⟨_, rfl⟩)

/-! ### The commit phase (R171 phases 5 and 6) -/

/-- A suspended `wait-key` is `wait-key` with no key pressed (R153). -/
theorem suspended_iff (i : Instr) (s : State) :
    suspended i s = true ↔ ∃ x, i = .waitKey x ∧ s.keys = 0 := by
  cases i <;> simp [suspended, isWaitKey]

/-- The commit phase raises `NoProgress` on the unchanged state, or keeps the copy. -/
theorem commit_cases (i : Instr) (before after : State) :
    (after.fault = none ∧ suspended i before = false ∧ after.pc = before.ppc ∧
      commit i before after = raise .noProgress before) ∨
    (commit i before after = after ∧
      (after.fault = none → suspended i before = false → after.pc ≠ before.ppc)) := by
  unfold commit
  split
  · next h => exact .inl ⟨h.1, h.2.1, h.2.2, rfl⟩
  · next h => exact .inr ⟨rfl, fun h1 h2 h3 => h ⟨h1, h2, h3⟩⟩

/-! ### A step (R171) -/

/-- A step of a halted core changes nothing (R197). -/
theorem step_halted (s : State) (h : s.fault ≠ none) : step s = .next s := by
  cases hf : s.fault with
  | none => exact absurd hf h
  | some r => simp [step, hf]

/-- Everything a step of a running core can do: the fetch faults, the word is illegal, or an instruction
runs and is committed. -/
theorem step_cases {s t : State} (hs : s.fault = none) (h : step s = .next t) :
    (∃ f, fetch s = .error f ∧ t = raise f (beginStep s)) ∨
    (∃ w bad, fetch s = .ok w ∧ decode w = .decodeFault bad ∧
      t = raise (.decodeFault bad) (beginStep s)) ∨
    (∃ w i u, fetch s = .ok w ∧ decode w = .instr i ∧ exec i (beginStep s) = .next u ∧
      t = commit i (beginStep s) u) := by
  simp only [step, hs, fetch_beginStep] at h
  cases hf : fetch s with
  | error f =>
    simp only [hf] at h
    exact .inl ⟨f, rfl, (Host.Outcome.next.inj h).symm⟩
  | ok w =>
    simp only [hf] at h
    cases hd : decode w with
    | decodeFault bad =>
      simp only [hd] at h
      exact .inr (.inl ⟨w, bad, rfl, hd, (Host.Outcome.next.inj h).symm⟩)
    | instr i =>
      simp only [hd] at h
      obtain ⟨u, hu⟩ := exec_next i (beginStep s)
      simp only [hu] at h
      exact .inr (.inr ⟨w, i, u, rfl, hd, hu, (Host.Outcome.next.inj h).symm⟩)

/-- The step of a fetched and decoded instruction: its execute phase, then the commit phase. -/
theorem step_of_decode {s u : State} {w : Word} {i : Instr} (hs : s.fault = none)
    (hf : fetch s = .ok w) (hd : decode w = .instr i) (hu : exec i (beginStep s) = .next u) :
    step s = .next (commit i (beginStep s) u) := by
  simp [step, hs, hf, hd, hu]

/-- The step of an illegal word (R191). -/
theorem step_of_illegal {s : State} {w bad : Word} (hs : s.fault = none) (hf : fetch s = .ok w)
    (hd : decode w = .decodeFault bad) :
    step s = .next (raise (.decodeFault bad) (beginStep s)) := by
  simp [step, hs, hf, hd]

/-- The step whose fetch is out of range (R193). -/
theorem step_of_fetch_fault {s : State} {f : FaultCause} (hs : s.fault = none)
    (hf : fetch s = .error f) : step s = .next (raise f (beginStep s)) := by
  simp [step, hs, hf]

theorem runOps_cons (op : HostOp) (ops : List HostOp) {s t : State} (h : applyOp op s = .next t) :
    runOps (op :: ops) s = runOps ops t := by
  simp [runOps, h]

end Sys2Proof.Machine
end

