-- ==== Sys2Proof/Laws/Exec.lean ====
section
/-! SUPPORT. What the execute phase can do with the fault latch, said once for all 29 instructions, and how
a frame is put together from its parts. -/
namespace Sys2Proof.Machine

/-- The key index is a key, or the fault names an index above 15 (R151). -/
theorem keyIndex_cases (x : Reg) (s : State) :
    ((s.reg x).toNat ≤ 15 ∧ keyIndex x s = .ok (s.reg x).toNat) ∨
    (15 < (s.reg x).toNat ∧
      ∃ a : Word, a.toNat = (s.reg x).toNat ∧ keyIndex x s = .error (.outOfBounds .key a)) := by
  unfold keyIndex
  split
  · next h => exact .inl ⟨h, rfl⟩
  · next h =>
    refine .inr ⟨by omega, _, ?_, rfl⟩
    have := (s.reg x).isLt
    simp only [BitVec.toNat_setWidth]
    omega

/-- A raised fault of the execute phase: never `NoProgress`, and its information is one it can have. -/
def RaisedIn (s u : State) : Prop :=
  ∃ c : FaultCause, u = raise c s ∧ c ≠ .noProgress ∧ c.Consistent

theorem raisedIn_span {s : State} {n : Nat} {f : FaultCause}
    (h : checkSpan s.i.toNat n = some f) : RaisedIn s (raise f s) := by
  obtain ⟨info, rfl, hi⟩ := checkSpan_fault s.i.isLt h
  exact ⟨_, rfl, by simp, hi⟩

theorem raisedIn_key {s : State} {x : Reg} {f : FaultCause} (h : keyIndex x s = .error f) :
    RaisedIn s (raise f s) := by
  rcases keyIndex_cases x s with ⟨_, h'⟩ | ⟨hx, a, ha, h'⟩
  · simp [h'] at h
  · obtain rfl : FaultCause.outOfBounds .key a = f := by simpa [h'] using h
    refine ⟨_, rfl, by simp, ?_⟩
    have := (s.reg x).isLt
    simp only [FaultCause.Consistent]
    omega

/-- The execute phase leaves the latch as it was, or raises a fault on the state it started from. -/
theorem exec_latch {i : Instr} {s u : State} (h : exec i s = .next u) :
    u.fault = s.fault ∨ RaisedIn s u := by
  cases i
  case ret =>
    simp only [exec, execRet] at h
    split at h <;> cases h
    · exact .inr ⟨_, rfl, by simp, trivial⟩
    · next hp =>
      obtain ⟨_, _, rfl⟩ := popReturn_some hp
      exact .inl rfl
  case call nnn =>
    simp only [exec, execCall] at h
    split at h <;> cases h
    · exact .inr ⟨_, rfl, by simp, trivial⟩
    · next hp =>
      obtain ⟨_, rfl⟩ := pushReturn_some hp
      exact .inl rfl
  case draw x y n =>
    simp only [exec, execDraw] at h
    split at h <;> cases h
    · exact .inr (raisedIn_span ‹_›)
    · exact .inl rfl
  case storeBcd x =>
    simp only [exec, execStoreBcd] at h
    split at h <;> cases h
    · exact .inr (raisedIn_span ‹_›)
    · exact .inl rfl
  case storeBlock x =>
    simp only [exec, execStoreBlock] at h
    split at h <;> cases h
    · exact .inr (raisedIn_span ‹_›)
    · exact .inl rfl
  case loadBlock x =>
    simp only [exec, execLoadBlock] at h
    split at h <;> cases h
    · exact .inr (raisedIn_span ‹_›)
    · exact .inl rfl
  case skipKeyEq x =>
    simp only [exec, execSkipKeyEq] at h
    split at h <;> cases h
    · exact .inr (raisedIn_key ‹_›)
    · exact .inl rfl
  case skipKeyNeq x =>
    simp only [exec, execSkipKeyNeq] at h
    split at h <;> cases h
    · exact .inr (raisedIn_key ‹_›)
    · exact .inl rfl
  case waitKey x =>
    simp only [exec, execWaitKey] at h
    split at h <;> cases h <;> exact .inl rfl
  all_goals
    cases h
    exact .inl rfl

/-- A frame from its parts. -/
theorem State.frame_of_parts {s t : State} {regs : List Reg} {parts : List Part}
    (hr : ∀ r : Reg, r ∉ regs → t.reg r = s.reg r)
    (hi : Part.index ∉ parts → t.i = s.i)
    (hs : Part.stack ∉ parts → (∀ j, t.slot j = s.slot j) ∧ t.sp.val = s.sp.val)
    (hm : Part.memory ∉ parts → ∀ a, t.byte a = s.byte a)
    (hd : Part.display ∉ parts → ∀ x y, t.pixel x y = s.pixel x y)
    (hdt : Part.delayTimer ∉ parts → t.dt = s.dt)
    (hst : Part.soundTimer ∉ parts → t.st = s.st)
    (hp : Part.present ∉ parts → t.presents = s.presents)
    (hk : t.keys = s.keys) (hpp : t.ppc = s.ppc) (hf : t.fault = s.fault) (hc : t.cfg = s.cfg) :
    s.Frame regs parts t := by
  refine ⟨hr, fun p h => ?_, hk, hpp, hf, hc⟩
  cases p
  exacts [hi h, hs h, hm h, hd h, hdt h, hst h, hp h]

end Sys2Proof.Machine
end

