-- ==== Sys2Proof/Laws/Operands.lean ====
section
/-! SUPPORT. What each operand form gives (R73, R133 to R142, R154), and what the host's two operations do to
a timer and to a key (R174, R175). -/
namespace Sys2Proof.Machine

/-! ### Widened operands -/

theorem zextAddr_toNat (nnn : Addr) : (zextAddr nnn).toNat = nnn.toNat := by
  simp [zextAddr]
  omega

theorem zextReg_toNat (x : Reg) (s : State) : (zextReg x s).toNat = (s.reg x).toNat := by
  simp [zextReg]
  omega

/-! ### Blocks, sprites and digits -/

theorem length_blockRegs (x : Reg) (s : State) : (blockRegs x s).length = x.toNat + 1 := by
  simp [blockRegs, blockLength]
  omega

/-- Byte `r` of the block is register `r` (R134). -/
theorem getElem?_blockRegs (x r : Reg) (s : State) (h : r.toNat ≤ x.toNat) :
    (blockRegs x s)[r.toNat]? = some (s.reg r) := by
  have := r.isLt
  simp [blockRegs, blockLength, List.getElem?_take, State.reg]
  omega

theorem length_spriteRows (n : Nibble) (s : State) : (spriteRows n s).length = n.toNat := by
  simp [spriteRows]

/-- Row `r` of the sprite is the byte at `I + r` (R142). -/
theorem getElem?_spriteRows (n : Nibble) (s : State) (r : Nat) (h : r < n.toNat) :
    (spriteRows n s)[r]? = some (s.byte (s.i.toNat + r)) := by
  rw [spriteRows, getElem?_bytes, if_pos h]

/-- The three digits as numbers (R133). -/
theorem bcdDigits_toNat (v : Byte) :
    (bcdDigits v).map BitVec.toNat = [v.toNat / 100, v.toNat / 10 % 10, v.toNat % 10] := by
  simp [bcdDigits]

/-! ### The reported key (R154) -/

theorem mem_pressedKeys (keys : BitVec 16) (k : Nat) :
    k ∈ pressedKeys keys ↔ k < 16 ∧ keys.getLsbD k = true := by
  simp [pressedKeys, keyPressed]

theorem pressedKeys_eq_nil (keys : BitVec 16) : pressedKeys keys = [] ↔ keys = 0 := by
  constructor
  · intro e
    refine BitVec.eq_of_getLsbD_eq fun i hi => ?_
    have := (mem_pressedKeys keys i).not.mp (by simp [e])
    simpa [hi] using this
  · rintro rfl
    simp [pressedKeys, keyPressed]

/-- The constraint every choice meets: the reported key is pressed. -/
theorem keySelect_pressed (keys : BitVec 16) (h : keys ≠ 0) :
    keySelect keys < 16 ∧ keys.getLsbD (keySelect keys) = true := by
  rw [← mem_pressedKeys]
  unfold keySelect
  split
  · next e => exact absurd ((pressedKeys_eq_nil keys).mp e) h
  · next k e => simp [e]
  · next k ks _ e =>
    have : Config.keySelect keys % (ks.length + 1) < (k :: ks).length := by
      simpa using Nat.mod_lt _ (Nat.succ_pos _)
    rw [e, List.getElem?_eq_getElem this]
    exact List.getElem_mem this

/-! ### Timers and keys under the host's operations (R174, R175) -/

theorem countDown_toNat (t : Byte) : (countDown t).toNat = t.toNat - 1 := by
  unfold countDown
  split
  · next h => simp [h]
  · next h =>
    have h0 : t.toNat ≠ 0 := fun e => h (BitVec.eq_of_toNat_eq e)
    have := t.isLt
    rw [BitVec.toNat_sub]
    simp
    omega

theorem getLsbD_bit (code : Nibble) (j : Nat) :
    ((1 : BitVec 16) <<< code.toNat).getLsbD j = decide (j = code.toNat) := by
  have := code.isLt
  rw [BitVec.getLsbD_shiftLeft, Bool.eq_iff_iff]
  simp
  omega

/-- `SetKey` writes the one bit (R175). -/
theorem getLsbD_setKeyBit (keys : BitVec 16) (code : Nibble) (pressed : Bool) (j : Nat) :
    (setKeyBit keys code pressed).getLsbD j = if j = code.toNat then pressed else keys.getLsbD j := by
  have := code.isLt
  by_cases hj : j < 16
  · cases pressed <;>
      simp only [setKeyBit, Bool.false_eq_true, if_true, if_false, BitVec.getLsbD_and,
        BitVec.getLsbD_or, BitVec.getLsbD_not, getLsbD_bit] <;> split <;> simp_all
  · rw [BitVec.getLsbD_of_ge _ _ (by omega), if_neg (by omega), BitVec.getLsbD_of_ge _ _ (by omega)]

end Sys2Proof.Machine
end

