-- ==== Sys2Proof/Laws/PerInstr.lean ====
section
/-! SUPPORT. Family OpcodeRow: the word of every instruction, whatever its operands, has the `match` bits of
its row of spec/opcode_table.json under the row's `mask` (30_encoding.md R76). -/
namespace Sys2Proof.Laws.OpcodeRow

/-- The `match` of each instruction's row, as spec/opcode_table.json prints it. -/
def code : Instr → Word
  | .clearScreen => 0x00E0
  | .ret => 0x00EE
  | .jump _ => 0x1000
  | .call _ => 0x2000
  | .skipEqImm _ _ => 0x3000
  | .skipNeqImm _ _ => 0x4000
  | .setImm _ _ => 0x6000
  | .addImm _ _ => 0x7000
  | .regAssign _ _ => 0x8000
  | .regAnd _ _ => 0x8002
  | .regXor _ _ => 0x8003
  | .regAdd _ _ => 0x8004
  | .regSub _ _ => 0x8005
  | .regShr _ => 0x8006
  | .regSubn _ _ => 0x8007
  | .regShl _ => 0x800E
  | .setIndex _ => 0xA000
  | .draw _ _ _ => 0xD000
  | .skipKeyEq _ => 0xE09E
  | .skipKeyNeq _ => 0xE0A1
  | .getTimer _ => 0xF007
  | .waitKey _ => 0xF00A
  | .setTimer _ => 0xF015
  | .setSoundTimer _ => 0xF018
  | .addIndex _ => 0xF01E
  | .fontCharAddr _ => 0xF029
  | .storeBcd _ => 0xF033
  | .storeBlock _ => 0xF055
  | .loadBlock _ => 0xF065

/-- The `mask` of each instruction's row, as spec/opcode_table.json prints it. -/
def mask : Instr → Word
  | .clearScreen | .ret => 0xFFFF
  | .jump _ | .call _ | .setIndex _ | .skipEqImm _ _ | .skipNeqImm _ _ | .setImm _ _ | .addImm _ _
  | .draw _ _ _ => 0xF000
  | .regAssign _ _ | .regAnd _ _ | .regXor _ _ | .regAdd _ _ | .regSub _ _ | .regShr _
  | .regSubn _ _ | .regShl _ => 0xF00F
  | .skipKeyEq _ | .skipKeyNeq _ | .getTimer _ | .waitKey _ | .setTimer _ | .setSoundTimer _
  | .addIndex _ | .fontCharAddr _ | .storeBcd _ | .storeBlock _ | .loadBlock _ => 0xF0FF

/-- The word of `i` shows the fixed bits of its row. -/
def Statement (i : Instr) : Prop := encode i &&& mask i = code i

/-! ### The fixed bits of each format (R72) -/

theorem encodeAddr_masked (c : Nibble) (nnn : Addr) :
    encodeAddr c nnn &&& 0xF000 = c ++ (0 : Addr) := by
  have : (0xF000 : Word) = (0xF : Nibble) ++ (0 : Addr) := by decide
  have hc : c &&& 0xF = c := BitVec.and_allOnes
  have hn : nnn &&& 0 = 0 := BitVec.and_zero
  rw [encodeAddr, this, BitVec.and_append, hc, hn]

theorem encodeXByte_eq (c x : Nibble) (nn : Byte) :
    encodeXByte c x nn = encodeAddr c (x ++ nn) := by
  refine BitVec.eq_of_getLsbD_eq fun k hk => ?_
  have : (encodeAddr c (x ++ nn)).getLsbD k = (c ++ (x ++ nn)).getLsbD k := rfl
  rw [this, getLsbD_encodeXByte, BitVec.getLsbD_append]
  have h12 : (x ++ nn : Addr).getLsbD k = (x ++ nn).getLsbD k := rfl
  rw [h12, BitVec.getLsbD_append]
  by_cases h1 : k < 8
  · simp [h1, show k < 12 by omega]
  · by_cases h2 : k < 12 <;> simp [h1, h2]

theorem encodeXByte_masked (c x : Nibble) (nn : Byte) :
    encodeXByte c x nn &&& 0xF000 = c ++ (0 : Addr) := by
  rw [encodeXByte_eq, encodeAddr_masked]

theorem encodeX_masked (c x : Nibble) (nn : Byte) :
    encodeXByte c x nn &&& 0xF0FF = encodeXByte c 0 nn := by
  refine BitVec.eq_of_getLsbD_eq fun k hk => ?_
  rw [BitVec.getLsbD_and, getLsbD_encodeXByte, getLsbD_encodeXByte]
  have : ∀ j < 16, (0xF0FF : Word).getLsbD j = decide (j < 8 ∨ 12 ≤ j) := by decide
  rw [this k hk]
  by_cases h1 : k < 8
  · simp [h1]
  · by_cases h2 : k < 12
    · simp [h1, h2]
    · simp [h1, h2, show 12 ≤ k by omega]

theorem encodeXYN_masked (c x y n : Nibble) :
    encodeXYN c x y n &&& 0xF000 = c ++ (0 : Addr) := by
  rw [encodeXYN_eq, encodeXByte_masked]

theorem encodeXY_masked (c x y n : Nibble) :
    encodeXYN c x y n &&& 0xF00F = encodeXYN c 0 0 n := by
  refine BitVec.eq_of_getLsbD_eq fun k hk => ?_
  have hb : ∀ x y, (encodeXYN c x y n).getLsbD k = (((c ++ x) ++ y) ++ n).getLsbD k := fun _ _ => rfl
  have : ∀ j < 16, (0xF00F : Word).getLsbD j = decide (j < 4 ∨ 12 ≤ j) := by decide
  rw [BitVec.getLsbD_and, hb, hb, this k hk]
  simp only [BitVec.getLsbD_append]
  by_cases h1 : k < 4
  · simp [h1]
  · by_cases h2 : k < 12
    · by_cases h3 : k < 8
      · simp [h1, show ¬ 12 ≤ k by omega, show k - 4 < 4 by omega]
      · simp [h1, show ¬ 12 ≤ k by omega, show ¬ k - 4 < 4 by omega, show k - 4 - 4 < 4 by omega]
    · simp [h1, show 12 ≤ k by omega, show ¬ k - 4 < 4 by omega, show ¬ k - 4 - 4 < 4 by omega]

/-! ### One lemma per instruction -/

theorem clearScreen : Statement .clearScreen := rfl
theorem ret : Statement .ret := rfl
theorem jump (nnn : Addr) : Statement (.jump nnn) := encodeAddr_masked 0x1 nnn
theorem call (nnn : Addr) : Statement (.call nnn) := encodeAddr_masked 0x2 nnn
theorem skipEqImm (x : Reg) (nn : Byte) : Statement (.skipEqImm x nn) := encodeXByte_masked 0x3 x nn
theorem skipNeqImm (x : Reg) (nn : Byte) : Statement (.skipNeqImm x nn) := encodeXByte_masked 0x4 x nn
theorem setImm (x : Reg) (nn : Byte) : Statement (.setImm x nn) := encodeXByte_masked 0x6 x nn
theorem addImm (x : Reg) (nn : Byte) : Statement (.addImm x nn) := encodeXByte_masked 0x7 x nn
theorem regAssign (x y : Reg) : Statement (.regAssign x y) := encodeXY_masked 0x8 x y 0x0
theorem regAnd (x y : Reg) : Statement (.regAnd x y) := encodeXY_masked 0x8 x y 0x2
theorem regXor (x y : Reg) : Statement (.regXor x y) := encodeXY_masked 0x8 x y 0x3
theorem regAdd (x y : Reg) : Statement (.regAdd x y) := encodeXY_masked 0x8 x y 0x4
theorem regSub (x y : Reg) : Statement (.regSub x y) := encodeXY_masked 0x8 x y 0x5
theorem regShr (x : Reg) : Statement (.regShr x) := encodeXY_masked 0x8 x 0x0 0x6
theorem regSubn (x y : Reg) : Statement (.regSubn x y) := encodeXY_masked 0x8 x y 0x7
theorem regShl (x : Reg) : Statement (.regShl x) := encodeXY_masked 0x8 x 0x0 0xE
theorem setIndex (nnn : Addr) : Statement (.setIndex nnn) := encodeAddr_masked 0xA nnn
theorem draw (x y : Reg) (n : Nibble) : Statement (.draw x y n) := encodeXYN_masked 0xD x y n
theorem skipKeyEq (x : Reg) : Statement (.skipKeyEq x) := encodeX_masked 0xE x 0x9E
theorem skipKeyNeq (x : Reg) : Statement (.skipKeyNeq x) := encodeX_masked 0xE x 0xA1
theorem getTimer (x : Reg) : Statement (.getTimer x) := encodeX_masked 0xF x 0x07
theorem waitKey (x : Reg) : Statement (.waitKey x) := encodeX_masked 0xF x 0x0A
theorem setTimer (x : Reg) : Statement (.setTimer x) := encodeX_masked 0xF x 0x15
theorem setSoundTimer (x : Reg) : Statement (.setSoundTimer x) := encodeX_masked 0xF x 0x18
theorem addIndex (x : Reg) : Statement (.addIndex x) := encodeX_masked 0xF x 0x1E
theorem fontCharAddr (x : Reg) : Statement (.fontCharAddr x) := encodeX_masked 0xF x 0x29
theorem storeBcd (x : Reg) : Statement (.storeBcd x) := encodeX_masked 0xF x 0x33
theorem storeBlock (x : Reg) : Statement (.storeBlock x) := encodeX_masked 0xF x 0x55
theorem loadBlock (x : Reg) : Statement (.loadBlock x) := encodeX_masked 0xF x 0x65

end Sys2Proof.Laws.OpcodeRow
end

