-- ==== Sys2Proof/Tests/Slice0.lean ====
section
/-! SUPPORT. The model's own tests: ill-formed terms that the checks refuse, words written out from the
encodings, one step per instruction from the vectors of 95_test_vectors.md (T1 to T10), and for every
statement with hypotheses a named witness that meets them. Expected values are the spec's. -/
namespace Sys2Proof.Machine.Tests

/-! ### Helpers -/

/-- The state after reset (the spec's S0) with a word where the first step fetches it. -/
def placed (w : Nat) : State := State.reset.withFetchWord 16 w

/-- The same with some registers set. -/
def placedWith (w : Nat) (regs : List (Reg × Byte)) : State :=
  regs.foldl (fun s p => s.setReg p.1 p.2) (placed w)

/-- A word at `pc = a`. -/
def placedAt (a w : Nat) : State :=
  { State.reset with pc := BitVec.ofNat 16 a }.withFetchWord 16 w

/-- The next state. -/
def nextOf (o : Host.Outcome State Fault Refusal) (s : State) : State :=
  match o with
  | .next t    => t
  | .fault _   => s
  | .refused _ => s

/-- The state after one step. -/
def after (s : State) : State := nextOf (step s) s

/-- The state after one execute phase. -/
def ran (i : Instr) (s : State) : State := nextOf (exec i s) s

theorem ran_next (i : Instr) (s : State) : exec i s = .next (ran i s) := by
  obtain ⟨t, h⟩ := exec_next i s
  rw [ran, h, nextOf]

/-- The top left corner of the display, `h` rows of `w` pixels. -/
def corner (w h : Nat) (s : State) : List (List Bool) :=
  (s.display.toList.take h).map fun r => r.toList.take w

/-- A state with pixel (x, y) lit. -/
def lit (x y : Nat) (s : State) : State :=
  s.withDisplay (s.display.setIfInBounds y ((Vector.replicate _ false).setIfInBounds x true))

/-- `n` return addresses held (no more than fit), each `a`. -/
def stacked (n : Nat) (a : Word) (s : State) : State :=
  { s with sp := Fin.ofNat _ n, stk := Vector.replicate _ a }

/-- A full return stack. -/
def fullStack (s : State) : State := stacked s.cfg.stackDepth 0x300 s

/-- Another configuration R6 allows: its own origin, display size, stack depth and font. -/
def small : Params := ⟨0x100, 8, 15, 2, List.replicate 80 0x81⟩

/-! ### WellFormed: an ill-formed term for each check (R6, R177, R82) -/

theorem test_config_wellFormed : Config.params.wellFormed = true := by decide
theorem test_origin_below_font_refused : { Config.params with origin := 79 }.wellFormed = false := by
  decide
theorem test_origin_past_memory_refused :
    { Config.params with origin := 4096 }.wellFormed = false := by decide
theorem test_narrow_display_refused :
    { Config.params with displayW := 7 }.wellFormed = false := by decide
theorem test_low_display_refused :
    { Config.params with displayH := 14 }.wellFormed = false := by decide
theorem test_no_stack_refused :
    { Config.params with stackDepth := 0 }.wellFormed = false := by decide
theorem test_short_font_refused :
    { Config.params with font := [0xF0] }.wellFormed = false := by decide
theorem test_wide_operands_refused :
    operandFits 4 16 = false ∧ operandFits 8 256 = false ∧ operandFits 12 4096 = false ∧
    operandFits 4 15 = true ∧ operandFits 8 255 = true ∧ operandFits 12 4095 = true := by decide
theorem test_long_image_refused (image : List Byte) (h : image.length = 3585) :
    imageFits Config.params image = false := by
  simp [imageFits, Config.memSize, Config.params, h]
theorem test_longest_image_fits (image : List Byte) (h : image.length = 3584) :
    imageFits Config.params image = true := by
  simp [imageFits, Config.memSize, Config.params, h]
theorem test_instr_wellFormed : (Instr.draw 15 15 15).wellFormed = true := by decide

/-! ### Another configuration (R6) -/

theorem test_small_wellFormed : small.wellFormed = true := by decide
/-- The origin, the display size, the stack depth and the font are the configuration's. -/
theorem test_small_reset :
    let s := State.resetOf small
    s.pc = 0x100 ∧ s.byte 79 = 0x81 ∧ s.byte 80 = 0x00 ∧ s.display.toList.length = 15 := by decide
/-- The second `call` fills the two slots and the third overflows (R103, R194). -/
theorem test_small_stack :
    let s := (stacked 1 0x300 (State.resetOf small)).withFetchWord 16 0x2300
    (after s).sp.val = 2 ∧ (after s).slot 1 = 0x102 ∧
    (after (fullStack s)).fault = some ⟨.stackOverflow, 0x100⟩ := by decide
/-- The coordinates wrap at 8 columns and 15 rows (R144): bits 7 and 0 of 0x81 land at columns 1 and 0. -/
theorem test_small_draw :
    let s := (State.resetOf small).withFetchWord 16 0xD011
    let t := after ((s.setReg 0 9).setReg 1 16)
    (List.range 8).map (t.pixel · 1) = [true, true, false, false, false, false, false, false] := by
  decide
theorem test_small_launch :
    launch small [0x12, 0x00] =
      .next { State.resetOf small with mem := [(0x100, 0x12)] } := by rfl

/-! ### Decode: a word per constructor, from R76 and the tables T1 to T7 -/

theorem test_decode_control :
    decode 0x00E0 = .instr .clearScreen ∧ decode 0x00EE = .instr .ret ∧
    decode 0x1ABC = .instr (.jump 0xABC) ∧ decode 0x2300 = .instr (.call 0x300) ∧
    decode 0x3A55 = .instr (.skipEqImm 0xA 0x55) ∧ decode 0x4A55 = .instr (.skipNeqImm 0xA 0x55) := by
  decide
theorem test_decode_alu :
    decode 0x6A55 = .instr (.setImm 0xA 0x55) ∧ decode 0x7AFF = .instr (.addImm 0xA 0xFF) ∧
    decode 0x8120 = .instr (.regAssign 1 2) ∧ decode 0x8122 = .instr (.regAnd 1 2) ∧
    decode 0x8123 = .instr (.regXor 1 2) ∧ decode 0x8124 = .instr (.regAdd 1 2) ∧
    decode 0x8125 = .instr (.regSub 1 2) ∧ decode 0x8106 = .instr (.regShr 1) ∧
    decode 0x8127 = .instr (.regSubn 1 2) ∧ decode 0x810E = .instr (.regShl 1) := by decide
theorem test_decode_index :
    decode 0xAFFF = .instr (.setIndex 0xFFF) ∧ decode 0xF21E = .instr (.addIndex 2) ∧
    decode 0xF129 = .instr (.fontCharAddr 1) ∧ decode 0xF033 = .instr (.storeBcd 0) ∧
    decode 0xFF55 = .instr (.storeBlock 15) ∧ decode 0xFF65 = .instr (.loadBlock 15) := by decide
theorem test_decode_devices :
    decode 0xDF15 = .instr (.draw 15 1 5) ∧ decode 0xE29E = .instr (.skipKeyEq 2) ∧
    decode 0xE2A1 = .instr (.skipKeyNeq 2) ∧ decode 0xF30A = .instr (.waitKey 3) ∧
    decode 0xF507 = .instr (.getTimer 5) ∧ decode 0xF515 = .instr (.setTimer 5) ∧
    decode 0xF518 = .instr (.setSoundTimer 5) := by decide
/-- R77: every `Y` of a shift is the same instruction. -/
theorem test_decode_shift_ignores_y :
    decode 0x84A6 = .instr (.regShr 4) ∧ decode 0x8FFE = .instr (.regShl 15) := by decide
/-! The illegal words of T9. -/
theorem test_decode_illegal_class_0 :
    decode 0x0000 = .decodeFault 0x0000 ∧ decode 0x0123 = .decodeFault 0x0123 ∧
    decode 0x00E1 = .decodeFault 0x00E1 ∧ decode 0x00EF = .decodeFault 0x00EF ∧
    decode 0x01E0 = .decodeFault 0x01E0 ∧ decode 0x0FFF = .decodeFault 0x0FFF := by decide
theorem test_decode_illegal_class_8 :
    decode 0x8011 = .decodeFault 0x8011 ∧ decode 0x8018 = .decodeFault 0x8018 ∧
    decode 0x801D = .decodeFault 0x801D ∧ decode 0x801F = .decodeFault 0x801F := by decide
theorem test_decode_illegal_undefined_classes :
    decode 0x5010 = .decodeFault 0x5010 ∧ decode 0x5011 = .decodeFault 0x5011 ∧
    decode 0x9010 = .decodeFault 0x9010 ∧ decode 0xB300 = .decodeFault 0xB300 ∧
    decode 0xC0FF = .decodeFault 0xC0FF := by decide
theorem test_decode_illegal_classes_E_F :
    decode 0xE000 = .decodeFault 0xE000 ∧ decode 0xE09F = .decodeFault 0xE09F ∧
    decode 0xE1A0 = .decodeFault 0xE1A0 ∧ decode 0xF000 = .decodeFault 0xF000 ∧
    decode 0xF006 = .decodeFault 0xF006 ∧ decode 0xF01F = .decodeFault 0xF01F ∧
    decode 0xF075 = .decodeFault 0xF075 ∧ decode 0xF0FF = .decodeFault 0xF0FF := by decide
/-- The assembled examples of R82. -/
theorem test_encode_examples :
    encodeBytes (.setImm 3 0x2A) = [0x63, 0x2A] ∧ encode (.draw 0 1 5) = 0xD015 ∧
    encode (.regShr 4) = 0x8406 ∧ encode (.jump 0x200) = 0x1200 ∧ encode (.loadBlock 2) = 0xF265 := by
  decide
theorem test_decodeTableWord :
    decodeTableWord 16 0x8124 = some (.regAdd 1 2) ∧ decodeTableWord 16 0x5010 = none := by decide
theorem test_decodeBytes_is_big_endian :
    decodeBytes [0x63, 0x2A, 0x11] = some (.instr (.setImm 3 0x2A), [0x11]) ∧
    decodeBytes [0x63] = none := by decide
theorem test_withFetchWord_is_fetched :
    fetch (placed 0x632A) = .ok 0x632A ∧ fetch (placedAt 0xFFE 0x632A) = .ok 0x632A := by decide

/-! ### T1: control transfer -/

theorem test_return_pops :
    let t := after (stacked 1 0x0ABC (placed 0x00EE))
    t.pc = 0x0ABC ∧ t.sp.val = 0 ∧ t.fault = none := by decide
theorem test_return_faults :
    (after (placed 0x00EE)).fault = some ⟨.stackUnderflow, 0x200⟩ ∧
    (after (stacked 1 0x0200 (placed 0x00EE))).fault =
      some ⟨.noProgress, 0x200⟩ := by decide
theorem test_jump_to_odd : (after (placed 0x1201)).pc = 0x0201 := by decide
theorem test_jump_to_itself : (after (placed 0x1200)).fault = some ⟨.noProgress, 0x200⟩ := by decide
theorem test_call_last_slot :
    let t := after (stacked 15 0x300 (placed 0x2300))
    t.pc = 0x300 ∧ t.sp.val = 16 ∧ t.slot 15 = 0x202 ∧ t.fault = none := by decide
theorem test_call_overflow :
    let t := after (fullStack (placed 0x2300))
    t.fault = some ⟨.stackOverflow, 0x200⟩ ∧ t.pc = 0x200 ∧ t.sp.val = 16 := by decide
theorem test_skipEqImm :
    (after (placedWith 0x3A55 [(0xA, 0x55)])).pc = 0x204 ∧
    (after (placedWith 0x3A55 [(0xA, 0x54)])).pc = 0x202 := by decide
theorem test_skip_past_the_end : (after (placedAt 0xFFE 0x3000)).pc = 0x1002 := by decide
theorem test_skipNeqImm :
    (after (placedWith 0x4A55 [(0xA, 0x55)])).pc = 0x202 ∧
    (after (placedWith 0x4A55 [(0xA, 0x54)])).pc = 0x204 := by decide

/-! ### T2, T3: ALU -/

theorem test_setImm :
    let t := after (placed 0x6A55)
    t.reg 0xA = 0x55 ∧ t.pc = 0x202 := by decide
theorem test_addImm_wraps_without_flag :
    let t := after (placedWith 0x7A01 [(0xA, 0xFF), (15, 0x05)])
    t.reg 0xA = 0x00 ∧ t.reg 15 = 0x05 := by decide
theorem test_regAssign :
    let t := after (placedWith 0x8120 [(1, 0x11), (2, 0x22)])
    t.reg 1 = 0x22 ∧ t.reg 2 = 0x22 ∧ t.pc = 0x202 := by decide
theorem test_regAnd : (after (placedWith 0x8122 [(1, 0xCC), (2, 0xAA)])).reg 1 = 0x88 := by decide
theorem test_regXor : (after (placedWith 0x8123 [(1, 0xCC), (2, 0xAA)])).reg 1 = 0x66 := by decide
theorem test_regAdd :
    let t := after (placedWith 0x8124 [(1, 0xFF), (2, 0x01)])
    t.reg 1 = 0x00 ∧ t.reg 15 = 0x01 ∧ t.pc = 0x202 := by decide
theorem test_regAdd_vf :
    (after (placedWith 0x8F14 [(15, 0xFF), (1, 0x01)])).reg 15 = 0x01 ∧
    (after (placedWith 0x82F4 [(2, 0x01), (15, 0x7F)])).reg 2 = 0x80 := by decide
theorem test_regSub_unsigned :
    let t := after (placedWith 0x8125 [(1, 0x80), (2, 0x7F)])
    t.reg 1 = 0x01 ∧ t.reg 15 = 0x01 := by decide
theorem test_regSub_borrow :
    let t := after (placedWith 0x8125 [(1, 0x05), (2, 0x0A)])
    t.reg 1 = 0xFB ∧ t.reg 15 = 0x00 := by decide
theorem test_regSubn :
    let t := after (placedWith 0x8127 [(1, 0x05), (2, 0x0A)])
    t.reg 1 = 0x05 ∧ t.reg 15 = 0x01 ∧ t.reg 2 = 0x0A := by decide
theorem test_regSubn_vf :
    let t := after (placedWith 0x82F7 [(2, 0x90), (15, 0x80)])
    t.reg 2 = 0xF0 ∧ t.reg 15 = 0x00 := by decide
theorem test_regShr_ignores_y :
    let t := after (placedWith 0x84A6 [(4, 0x05), (0xA, 0xF0)])
    t.reg 4 = 0x02 ∧ t.reg 15 = 0x01 ∧ t.reg 0xA = 0xF0 := by decide
theorem test_regShr_vf : (after (placedWith 0x8F06 [(15, 0xFF)])).reg 15 = 0x00 := by decide
theorem test_regShl :
    let t := after (placedWith 0x810E [(1, 0x81)])
    t.reg 1 = 0x02 ∧ t.reg 15 = 0x01 := by decide
theorem test_regShl_vf :
    (after (placedWith 0x8F0E [(15, 0x80)])).reg 15 = 0x02 ∧
    (after (placedWith 0x8F0E [(15, 0x7F)])).reg 15 = 0x00 := by decide

/-! ### T4: index and memory -/

theorem test_setIndex : (after (placed 0xAFFF)).i = 0x0FFF := by decide
theorem test_addIndex :
    let t := after { placedWith 0xF21E [(2, 0x01), (15, 0x05)] with i := 0x0FFF }
    t.i = 0x1000 ∧ t.reg 15 = 0x05 ∧ t.fault = none := by decide
theorem test_addIndex_wraps :
    (after { placedWith 0xF21E [(2, 0x01)] with i := 0xFFFF }).i = 0x0000 := by decide
theorem test_fontCharAddr :
    (after (placedWith 0xF129 [(1, 0x0A)])).i = 0x0032 ∧
    (after (placedWith 0xF129 [(1, 0xFF)])).i = 0x04FB := by decide
theorem test_storeBcd :
    let t := after { placedWith 0xF033 [(0, 0x9C)] with i := 0x300 }
    t.bytes 0x300 3 = [0x01, 0x05, 0x06] ∧ t.i = 0x300 := by decide
theorem test_storeBcd_no_partial_store :
    let t := after { placedWith 0xF033 [(0, 0xFF)] with i := 0xFFE }
    t.fault = some ⟨.outOfBounds .mem 0x1000, 0x200⟩ ∧ t.bytes 0xFFE 2 = [0x00, 0x00] := by
  decide
theorem test_storeBlock_to_the_last_cell :
    let t := after { placedWith 0xFF55 [(0, 0x01), (15, 0xEE)] with i := 0xFF0 }
    t.byte 0xFF0 = 0x01 ∧ t.byte 0xFFF = 0xEE ∧ t.i = 0x1000 ∧ t.fault = none := by decide
theorem test_storeBlock_out_of_range :
    let t := after { placedWith 0xFF55 [(0, 0x01)] with i := 0xFF1 }
    t.fault = some ⟨.outOfBounds .mem 0x1000, 0x200⟩ ∧ t.byte 0xFF1 = 0x00 ∧ t.i = 0xFF1 := by
  decide
theorem test_loadBlock_all :
    let t := after (placed 0xFF65)
    t.v.toList = [0xF0, 0x90, 0x90, 0x90, 0xF0, 0x20, 0x60, 0x20, 0x20, 0x70, 0xF0, 0x10, 0xF0, 0x80,
      0xF0, 0xF0] ∧ t.i = 0x0010 := by decide
theorem test_loadBlock_out_of_range :
    let t := after { placed 0xF165 with i := 0xFFF }
    t.fault = some ⟨.outOfBounds .mem 0x1000, 0x200⟩ ∧ t.reg 0 = 0x00 := by decide

/-! ### T5: display -/

theorem test_clearScreen :
    let t := after (lit 63 31 (placedWith 0x00E0 [(15, 0x07)]))
    t.pixel 63 31 = false ∧ t.reg 15 = 0x07 ∧ t.presents = 1 ∧ t.pc = 0x202 := by decide
theorem test_draw_glyph_zero :
    let t := after (placedWith 0xD015 [(0, 0x40), (1, 0x20)])
    corner 5 6 t =
      [[true, true, true, true, false], [true, false, false, true, false],
       [true, false, false, true, false], [true, false, false, true, false],
       [true, true, true, true, false], [false, false, false, false, false]] ∧
    t.reg 15 = 0x00 ∧ t.presents = 1 := by decide
theorem test_draw_collides_and_wraps :
    let s := { placedWith 0xD011 [(0, 0x3F)] with i := 0x300, mem := (placed 0xD011).mem ++ [(0x300, 0x81)] }
    let t := after (lit 63 0 s)
    t.pixel 63 0 = false ∧ t.pixel 6 0 = true ∧ t.reg 15 = 0x01 := by decide

/-! ### T6: keyboard -/

theorem test_skipKeyEq :
    (after { placedWith 0xE29E [(2, 0x05)] with keys := 0x0020 }).pc = 0x204 ∧
    (after { placedWith 0xE29E [(2, 0x05)] with keys := 0x0010 }).pc = 0x202 := by decide
theorem test_skipKeyEq_bad_index :
    (after (placedWith 0xE29E [(2, 0x10)])).fault = some ⟨.outOfBounds .key 0x10, 0x200⟩ := by decide
theorem test_skipKeyNeq :
    (after { placedWith 0xE2A1 [(2, 0x05)] with keys := 0x0020 }).pc = 0x202 ∧
    (after (placedWith 0xE2A1 [(2, 0x05)])).pc = 0x204 := by decide
theorem test_skipKeyNeq_bad_index :
    (after (placedWith 0xE2A1 [(2, 0xFF)])).fault = some ⟨.outOfBounds .key 0xFF, 0x200⟩ := by decide
theorem test_waitKey_suspends :
    let t := after (placedWith 0xF30A [(3, 0x77)])
    t.pc = 0x200 ∧ t.reg 3 = 0x77 ∧ t.fault = none := by decide
theorem test_waitKey_completes :
    let t := after { placed 0xFF0A with keys := 0x1000 }
    t.reg 15 = 0x0C ∧ t.pc = 0x202 := by decide

/-! ### T7: timers -/

theorem test_getTimer :
    let t := after { placed 0xF507 with dt := 0x3C }
    t.reg 5 = 0x3C ∧ t.dt = 0x3C ∧ t.pc = 0x202 := by decide
theorem test_setTimer : (after (placedWith 0xF515 [(5, 0x3C)])).dt = 0x3C := by decide
theorem test_setSoundTimer :
    let t := after (placedWith 0xF518 [(5, 0x02)])
    t.st = 0x02 ∧ t.soundActive = true := by decide
theorem test_tick :
    let t := tick { State.reset with dt := 0x02, st := 0x01 }
    t.dt = 0x01 ∧ t.st = 0x00 ∧ (tick t).dt = 0x00 ∧ (tick t).st = 0x00 := by decide
theorem test_setKey :
    (setKey 7 true State.reset).keys = 0x0080 ∧ (setKey 7 false (setKey 7 true State.reset)).keys = 0 := by
  decide

/-! ### T8, T9, T10: fetch, illegal words, the latch -/

theorem test_fetch_last_word :
    let t := after (placedAt 0xFFE 0x6A55)
    t.reg 0xA = 0x55 ∧ t.pc = 0x1000 ∧ (after t).fault = some ⟨.outOfBounds .mem 0x1000, 0x1000⟩ := by
  decide
theorem test_fetch_across_the_end :
    (after { State.reset with pc := 0xFFF }).fault = some ⟨.outOfBounds .mem 0x1000, 0xFFF⟩ := by decide
theorem test_fetch_font :
    (after { State.reset with pc := 0 }).fault = some ⟨.decodeFault 0xF090, 0⟩ := by decide
/-- P8: the empty image. -/
theorem test_empty_image : (after State.reset).fault = some ⟨.decodeFault 0x0000, 0x200⟩ := by decide
/-- T10: a halted core still takes keys and ticks. -/
theorem test_latch :
    let t := after State.reset
    after t = t ∧ (setKey 1 true t).keys = 0x0002 ∧ t.pc = 0x200 ∧ t.stepResult = .fault
      ⟨.decodeFault 0x0000, 0x200⟩ := by decide

/-! ### Witnesses: states and operands that meet each statement's hypotheses -/

theorem witness_EncodeOfDecodeIsTheWord :
    decode 0x8124 = .instr (.regAdd 1 2) ∧ decode 0x84A6 = .instr (.regShr 4) ∧
    decode 0x8FFE = .instr (.regShl 15) := by decide
theorem witness_FetchIsBigEndianAndChecked :
    (placedAt 0xFFE 0).pc.toNat ≤ 0xFFE ∧ { State.reset with pc := 0xFFF }.pc.toNat = 0xFFF ∧
    0x1000 ≤ { State.reset with pc := 0x1000 }.pc.toNat ∧
    { State.reset with pc := 0x1000 }.fault = none := by decide
theorem witness_StepRunsTheDecodedInstruction :
    let s := placedAt 0xFFE 0x632A
    s.fault = none ∧ s.pc.toNat ≤ 0xFFE ∧
    decode (s.byte s.pc.toNat ++ s.byte (s.pc.toNat + 1) : Word) = .instr (.setImm 3 0x2A) := by
  decide
theorem witness_FaultingStepIsPrecise :
    let s := placed 0x00EE
    s.fault = none ∧ step s = .next (after s) ∧
    (after s).fault = some ⟨.stackUnderflow, 0x200⟩ := ⟨by decide, rfl, by decide⟩
theorem witness_HaltedCoreKeepsItsRecord : (after State.reset).fault ≠ none := by decide
theorem witness_CompletedStepMovesThePc :
    (placed 0x632A).fault = none ∧ step (placed 0x632A) = .next (after (placed 0x632A)) ∧
    (after (placed 0x632A)).fault = none ∧ step (placed 0xF30A) = .next (after (placed 0xF30A)) ∧
    (after (placed 0xF30A)).fault = none ∧ (after (placed 0xF30A)).pc = (placed 0xF30A).pc :=
  ⟨by decide, rfl, by decide, rfl, by decide, by decide⟩
theorem witness_OnlySelfTargetsRaiseNoProgress :
    let s := placed 0x1200
    s.fault = none ∧ step s = .next (after s) ∧ (after s).fault = some ⟨.noProgress, 0x200⟩ :=
  ⟨by decide, rfl, by decide⟩
theorem witness_SelfTargetsRaiseNoProgress_jump :
    (placed 0x1200).fault = none ∧ fetch (placed 0x1200) = .ok 0x1200 ∧
    decode 0x1200 = .instr (.jump 0x200) ∧ (0x200 : Addr).toNat = (placed 0x1200).pc.toNat := by decide
theorem witness_SelfTargetsRaiseNoProgress_call :
    let s := stacked 15 0x300 (placed 0x2200)
    s.fault = none ∧ fetch s = .ok 0x2200 ∧ decode 0x2200 = .instr (.call 0x200) ∧
    (0x200 : Addr).toNat = s.pc.toNat ∧ s.sp.val < s.cfg.stackDepth := by decide
theorem witness_SelfTargetsRaiseNoProgress_return :
    let s := stacked 16 0x200 (placed 0x00EE)
    s.fault = none ∧ fetch s = .ok 0x00EE ∧ decode 0x00EE = .instr .ret ∧
    (15 + 1 = s.sp.val ∧ s.slot 15 = s.pc) := by
  decide
theorem witness_FaultsComeInPhaseOrder :
    0xFFE < { State.reset with pc := 0xFFF }.pc.toNat ∧
    (fetch (placed 0x5010) = .ok 0x5010 ∧ decode 0x5010 = .decodeFault 0x5010) ∧
    (fetch (fullStack (placed 0x2200)) = .ok 0x2200 ∧ decode 0x2200 = .instr (.call 0x200) ∧
      (fullStack (placed 0x2200)).sp.val = (fullStack (placed 0x2200)).cfg.stackDepth ∧
      (fullStack (placed 0x2200)).fault = none) := by decide
theorem witness_FaultPortsShowTheRecord :
    State.reset.fault = none ∧
    { State.reset with fault := some ⟨.decodeFault 0, 0⟩ }.fault = some ⟨.decodeFault 0, 0⟩ ∧
    { State.reset with fault := some ⟨.stackUnderflow, 0⟩ }.fault = some ⟨.stackUnderflow, 0⟩ ∧
    { State.reset with fault := some ⟨.stackOverflow, 0⟩ }.fault = some ⟨.stackOverflow, 0⟩ ∧
    { State.reset with fault := some ⟨.outOfBounds .key 255, 0⟩ }.fault =
      some ⟨.outOfBounds .key 255, 0⟩ ∧
    { State.reset with fault := some ⟨.noProgress, 0⟩ }.fault = some ⟨.noProgress, 0⟩ := by decide
theorem witness_StepKeepsTheInvariant :
    (placed 0x632A).Inv ∧ step (placed 0x632A) = .next (after (placed 0x632A)) :=
  ⟨⟨by decide, by decide, by decide, by decide, trivial⟩, rfl⟩
theorem witness_ResetMeetsTheInvariant : small.wellFormed = true := by decide
theorem witness_EveryOperationAndRunKeepsTheInvariant :
    (placed 0x632A).Inv ∧
    ([0x12, 0x00] : List Byte).length ≤ Config.memSize - (placed 0x632A).cfg.origin ∧
    small.wellFormed = true ∧
    ([0x12, 0x00] : List Byte).length ≤ Config.memSize - small.origin :=
  ⟨⟨by decide, by decide, by decide, by decide, trivial⟩, by decide, by decide, by decide⟩
theorem witness_ResetValues :
    small.wellFormed = true ∧ small.font[15 * 5 + 4]? = some 0x81 ∧
    (15 : Nat) < 16 ∧ (4 : Nat) < 5 ∧ (80 : Nat) ≤ 80 := by decide
theorem witness_LoadPlacesTheImage (long : List Byte) (h : long.length = 3585) :
    ([0x12, 0x00] : List Byte).length ≤ Config.memSize - State.reset.cfg.origin ∧
    ([0x12, 0x00] : List Byte)[1]? = some 0x00 ∧
    ¬ (State.reset.cfg.origin ≤ 0x202 ∧
      0x202 < State.reset.cfg.origin + ([0x12, 0x00] : List Byte).length) ∧
    Config.memSize - State.reset.cfg.origin < long.length :=
  ⟨by decide, by decide, by decide, by
    simp [Config.memSize, State.reset, State.resetOf, Config.params, h]⟩
theorem witness_long_image : (List.replicate 3585 (0 : Byte)).length = 3585 := List.length_replicate
theorem witness_ReadAfterWrite : (0xFFF : Nat) ≤ 0xFFF ∧ (0 : Nat) ≠ 0xFFF ∧ (0xFFF : Nat) < 0x1000 := by
  decide
theorem witness_CanonicalMemoryIsItsReads :
    (Memory.wf [0x05] [(0x300, 0x05)] = true ∧
      Memory.wf [0x05] (Memory.write [0x05] [] 0x300 0x05) = true) ∧
    ∀ a, Memory.read [0x05] [(0x300, 0x05)] a =
      Memory.read [0x05] (Memory.write [0x05] [] 0x300 0x05) a :=
  ⟨by decide, fun a => congrArg (Memory.read [0x05] · a) (by decide)⟩
theorem witness_StoredBytesAreFetched :
    let s := { placed 0xF155 with i := 0x202 }
    (1 : Reg) ≠ 0 ∧ s.i.toNat + (1 : Reg).toNat ≤ 0xFFF ∧ s.i = s.pc + 2 := by decide
theorem witness_ReturnPopsTheStack :
    15 + 1 = (fullStack State.reset).sp.val ∧ 0 + 1 = (stacked 1 0x300 State.reset).sp.val ∧
    State.reset.sp.val = 0 ∧ State.reset.fault = none := by decide
theorem witness_CallPushesTheReturnAddress :
    State.reset.sp.val < State.reset.cfg.stackDepth ∧
    (stacked 15 0x300 State.reset).sp.val + 1 = State.reset.cfg.stackDepth ∧
    (fullStack State.reset).sp.val = (fullStack State.reset).cfg.stackDepth ∧
    (fullStack State.reset).fault = none := by decide
theorem witness_CallThenReturnComesBack :
    (stacked 15 0x300 State.reset).sp.val < (stacked 15 0x300 State.reset).cfg.stackDepth ∧
    14 < (stacked 15 0x300 State.reset).sp.val := by decide
theorem witness_ImmediateSkips : State.reset.reg 3 = 0x00 ∧ State.reset.reg 3 ≠ 0x2A := by decide
/-- X is another register than VF: AddSetsTheCarry, SubtractSetsNotBorrow, ShiftsByOnePlace (its other
clause has X = 15) and SameRegisterTwice. -/
theorem witness_destination_not_flag : (1 : Reg) ≠ 15 ∧ (14 : Reg) ≠ 15 := by decide
theorem witness_FlagRegisterRules :
    ∀ i ∈ [Instr.regAdd 1 2, .regShr 4, .setImm 14 9, .draw 1 2 1],
      exec i State.reset = .next (ran i State.reset) ∧
      (ran i State.reset).fault = State.reset.fault :=
  fun i hi => ⟨ran_next i _, (by decide : ∀ i ∈ [Instr.regAdd 1 2, .regShr 4, .setImm 14 9,
    .draw 1 2 1], (ran i State.reset).fault = State.reset.fault) i hi⟩
theorem witness_FlagRegisterRules_draw :
    { State.reset with i := 0xFFF }.i.toNat + (1 : Nibble).toNat ≤ 0x1000 ∧
    (ran (.draw 1 2 1) { State.reset with i := 0xFFF }).fault = none := by decide
theorem witness_StoreBcdWritesTheDigits :
    { State.reset with i := 0xFFD }.i.toNat + 2 ≤ 0xFFF := by decide
theorem witness_StoreBlockWritesTheRegisters :
    { State.reset with i := 0xFF0 }.i.toNat + (15 : Reg).toNat ≤ 0xFFF ∧
    (15 : Reg).toNat ≤ (15 : Reg).toNat ∧
    ¬ (0xFF0 ≤ 0xFEF ∧ 0xFEF ≤ 0xFF0 + (15 : Reg).toNat) := by decide
theorem witness_LoadBlockReadsTheRegisters :
    { State.reset with i := 0xFF1 }.i.toNat + (14 : Reg).toNat ≤ 0xFFF ∧
    (14 : Reg).toNat ≤ (14 : Reg).toNat ∧ (14 : Reg).toNat < (15 : Reg).toNat := by decide
theorem witness_OutOfRangeBlocksChangeNothing :
    State.reset.fault = none ∧ 0xFFF < { State.reset with i := 0xFFE }.i.toNat + 2 ∧
    0xFFF < { State.reset with i := 0xFF1 }.i.toNat + (15 : Reg).toNat ∧
    0xFFF < { State.reset with i := 0xFFFF }.i.toNat + (0 : Reg).toNat ∧
    ((2 : Nibble) ≠ 0 ∧ 0xFFF < { State.reset with i := 0xFFF }.i.toNat + (2 : Nibble).toNat - 1) := by
  decide
theorem witness_StoreThenLoadRoundTrips :
    let s := { placedWith 0 [(0, 0x11), (1, 0x22), (2, 0x33)] with i := 0x300 }
    let t := ran (.storeBlock 2) s
    let u := { State.reset with mem := t.mem, i := 0x300 }
    s.i.toNat + (2 : Reg).toNat ≤ 0xFFF ∧ exec (.storeBlock 2) s = .next t ∧
    (∀ a, u.byte a = t.byte a) ∧ u.i = s.i ∧ (2 : Reg).toNat ≤ (2 : Reg).toNat :=
  ⟨by decide, ran_next _ _, fun _ => rfl, by decide, by decide⟩
theorem witness_BlitIsTheXorOfTheWrappedSprite :
    (8 : Nat) ≤ 8 ∧ (15 : Nat) ≤ 15 ∧ ([0x81, 0xFF] : List Byte).length ≤ 15 ∧
    ([0x81, 0xFF] : List Byte)[1]? = some 0xFF ∧ (7 : Nat) < 8 ∧
    (∀ r < 2, ∀ c < 8, ¬ ((0 : Nat) = (60 + c) % 64 ∧ (2 : Nat) = (0 + r) % 32)) := by decide
theorem witness_BlitTwiceRestores :
    (∀ c < 8, (0x81 : Byte).getLsbD (7 - c) = true →
      (Grid.clear 8 15).pixel ((0 + c) % 8) ((0 + 0) % 15) = false) ∧
    (∃ b ∈ ([0x81] : List Byte), b ≠ 0) ∧ (∀ b ∈ ([0x00] : List Byte), b = 0) := by decide
theorem witness_DrawBlitsTheSprite :
    (0 : Nibble) = 0 ∧ { State.reset with i := 0xFF1 }.i.toNat + (15 : Nibble).toNat ≤ 0x1000 := by decide
theorem witness_KeySkips :
    let s := { placedWith 0 [(2, 15)] with keys := 0x8000 }
    (s.reg 2).toNat ≤ 15 ∧ s.keys.getLsbD (s.reg 2).toNat = true ∧
    State.reset.keys.getLsbD (State.reset.reg 2).toNat = false := by decide
theorem witness_KeyIndexAboveFifteenFaults :
    State.reset.fault = none ∧ 15 < ((placedWith 0 [(2, 16)]).reg 2).toNat := by decide
theorem witness_WaitKeyReportsAPressedKey : { State.reset with keys := 0x1080 }.keys ≠ 0 := by decide
theorem witness_WaitKeyReportsTheOnlyKey (j : Nat) :
    (15 : Nat) < 16 ∧ { State.reset with keys := 0x8000 }.keys.getLsbD j = decide (j = 15) := by
  refine ⟨by decide, ?_⟩
  by_cases h : j < 16
  · exact (by decide : ∀ k < 16, (0x8000 : BitVec 16).getLsbD k = decide (k = 15)) j h
  · rw [BitVec.getLsbD_of_ge _ _ (by omega)]
    exact (decide_eq_false (by omega)).symm
theorem witness_WaitKeySuspends :
    (placed 0xF30A).fault = none ∧ (placed 0xF30A).keys = 0 ∧ fetch (placed 0xF30A) = .ok 0xF30A ∧
    decode 0xF30A = .instr (.waitKey 3) := by decide
theorem witness_WaitingIsASuspendedWaitKey : (placed 0xF30A).waiting = true := by decide
theorem witness_SetKeySetsOneKey :
    (6 : Nat) ≠ (7 : Nibble).toNat ∧ State.reset.keys.getLsbD (7 : Nibble).toNat = false := by decide
theorem witness_InstructionsWriteOnlyWhatTheTableAllows :
    (exec .ret State.reset = .next (ran .ret State.reset) ∧ (ran .ret State.reset).fault ≠ none) ∧
    (exec (.setImm 3 9) State.reset = .next (ran (.setImm 3 9) State.reset) ∧
      (ran (.setImm 3 9) State.reset).fault = none) :=
  ⟨⟨ran_next _ _, by decide⟩, ⟨ran_next _ _, by decide⟩⟩
/-- The first bytes on either side of those the two storing forms write. -/
theorem witness_InstructionsWriteOnlyWhatTheTableAllows_stores :
    let s := { State.reset with i := 0x300 }
    (¬ (s.i.toNat ≤ 0x2FF ∧ 0x2FF ≤ s.i.toNat + 2) ∧
      ¬ (s.i.toNat ≤ 0x303 ∧ 0x303 ≤ s.i.toNat + 2) ∧ (ran (.storeBcd 0) s).fault = none) ∧
    (¬ (s.i.toNat ≤ 0x301 ∧ 0x301 ≤ s.i.toNat + blockLength 0 - 1) ∧
      ¬ (s.i.toNat ≤ 0x310 ∧ 0x310 ≤ s.i.toNat + blockLength 15 - 1) ∧
      (ran (.storeBlock 15) s).fault = none) := by decide
theorem witness_StepsLeaveKeysAndTimers :
    let s := placedWith 0xF515 [(5, 0x3C)]
    let u := placedWith 0xF518 [(5, 0x3C)]
    (step s = .next (after s) ∧ (after s).dt ≠ s.dt) ∧ (step u = .next (after u) ∧
    (after u).st ≠ u.st) := ⟨⟨rfl, by decide⟩, ⟨rfl, by decide⟩⟩
theorem witness_WhereEachInstructionLeavesThePc :
    State.reset.fault = none ∧
    ∀ i ∈ [Instr.jump 0xABC, .call 0x300, .skipEqImm 0 0, .skipNeqImm 0 0, .skipKeyEq 0, .skipKeyNeq 0,
      .waitKey 3, .regAdd 1 2],
      exec i State.reset = .next (ran i State.reset) ∧ (ran i State.reset).fault = none :=
  ⟨by decide, fun i hi => ⟨ran_next i _, (by decide : ∀ i ∈ [Instr.jump 0xABC, .call 0x300,
    .skipEqImm 0 0, .skipNeqImm 0 0, .skipKeyEq 0, .skipKeyNeq 0, .waitKey 3, .regAdd 1 2],
    (ran i State.reset).fault = none) i hi⟩⟩
theorem witness_WhereEachInstructionLeavesThePc_return :
    let s := fullStack State.reset
    s.fault = none ∧ exec .ret s = .next (ran .ret s) ∧ (ran .ret s).fault = none :=
  ⟨by decide, ran_next _ _, by decide⟩
theorem witness_SoundTimerIsNeverRead :
    step (placed 0x632A) = .next (after (placed 0x632A)) := rfl

end Sys2Proof.Machine.Tests
end

/-! PROOFS. The state's frame rules, what a completed instruction and a completed step can do (each said
once), and the statements of 10_state.md. -/
namespace Sys2Proof.Machine

/-! ### Frames of the state's operations (R39) -/

section Frames

variable {regs : List Reg} {parts : List Part} {s t u : State}

theorem State.Frame.refl : s.Frame regs parts s := by
  apply State.frame_of_parts <;> simp

theorem State.Frame.trans (h : s.Frame regs parts t) (h' : t.Frame regs parts u) :
    s.Frame regs parts u := by
  obtain ⟨hr, hp, hk, hpp, hf, hc⟩ := h
  obtain ⟨hr', hp', hk', hpp', hf', hc'⟩ := h'
  refine ⟨fun r hn => (hr' r hn).trans (hr r hn), fun p hn => ?_, hk'.trans hk, hpp'.trans hpp,
    hf'.trans hf, hc'.trans hc⟩
  have h := hp p hn
  have h' := hp' p hn
  cases p <;> simp_all [State.SamePart]

theorem frame_advance : s.Frame regs parts (advance s) := by
  apply State.frame_of_parts <;> simp

theorem frame_jumpTo (a : Word) : s.Frame regs parts (jumpTo a s) := by
  apply State.frame_of_parts <;> simp

theorem frame_skipIf (c : Bool) : s.Frame regs parts (skipIf c s) := by
  apply State.frame_of_parts <;> simp

theorem frame_setReg {x : Reg} (b : Byte) (h : x ∈ regs) : s.Frame regs parts (s.setReg x b) := by
  apply State.frame_of_parts
  · exact fun r hr => reg_setReg_other x r b s fun e => hr (e ▸ h)
  all_goals simp

theorem frame_setFlag (f : FlagSource) (h : 15 ∈ regs) : s.Frame regs parts (setFlag f s) :=
  frame_setReg _ h

theorem frame_withI (a : Word) (h : .index ∈ parts) : s.Frame regs parts (s.withI a) := by
  apply State.frame_of_parts <;> simp [h]

theorem frame_advanceIndex (x : Reg) (h : .index ∈ parts) :
    s.Frame regs parts (advanceIndex x s) := frame_withI _ h

theorem frame_withDt (b : Byte) (h : .delayTimer ∈ parts) : s.Frame regs parts (s.withDt b) := by
  apply State.frame_of_parts <;> simp [h]

theorem frame_withSt (b : Byte) (h : .soundTimer ∈ parts) : s.Frame regs parts (s.withSt b) := by
  apply State.frame_of_parts <;> simp [h]

theorem frame_store (base : Nat) (bytes : List Byte) (h : .memory ∈ parts) :
    s.Frame regs parts (s.store base bytes) := by
  apply State.frame_of_parts <;> simp [h]

theorem frame_pushed (a : Word) (hlt : s.sp.val < s.cfg.stackDepth) (h : .stack ∈ parts) :
    s.Frame regs parts (s.pushed a hlt) := by
  apply State.frame_of_parts <;> simp [h]

theorem frame_popped (h : .stack ∈ parts) : s.Frame regs parts s.popped := by
  apply State.frame_of_parts <;> simp [h]

theorem frame_withDisplay (g : Grid s.cfg.displayW s.cfg.displayH) (h : .display ∈ parts) :
    s.Frame regs parts (s.withDisplay g) := by
  apply State.frame_of_parts <;> simp [h]

theorem frame_emitPresent (h : .present ∈ parts) : s.Frame regs parts (emitPresent s) := by
  apply State.frame_of_parts <;> simp [h]

/-- The registers a block load may write are those numbered up to X (R135). -/
theorem mem_regsUpTo (x r : Reg) : r ∈ regsUpTo x ↔ r.toNat ≤ x.toNat := by
  simp only [regsUpTo, blockLength, List.mem_map, List.mem_range, Nat.lt_succ_iff]
  constructor
  · rintro ⟨k, hk, rfl⟩
    exact (Nat.mod_le k _).trans hk
  · exact fun h => ⟨r.toNat, h, by simp⟩

/-- A block load writes the registers up to X only (R135). -/
theorem frame_loadRegs {x : Reg} {bytes : List Byte} (hlen : bytes.length = blockLength x)
    (h : regs = regsUpTo x) : s.Frame regs parts (s.withV (loadRegs s.v 0 bytes)) := by
  apply State.frame_of_parts
  · intro r hr
    rw [h, mem_regsUpTo] at hr
    rw [reg_withV, loadRegs_getElem, if_pos (Nat.zero_le _),
      List.getElem?_eq_none (by rw [hlen, blockLength]; omega)]
    rfl
  all_goals simp

end Frames

theorem skipIf_pc_cases (c : Bool) (s : State) :
    (skipIf c s).pc = s.pc + 2 ∨ (skipIf c s).pc = s.pc + 4 := by
  cases c <;> simp

/-! ### What the execute phase does when it raises no fault -/

/-- Instruction `i`, its own check passed, took `s` to `u`. The instructions without a check always
complete. -/
def Completed (i : Instr) (s u : State) : Prop :=
  match i with
  | .ret => ∃ j, j + 1 = s.sp.val ∧ u = jumpTo (s.slot j) s.popped
  | .call nnn => ∃ h : s.sp.val < s.cfg.stackDepth, u = jumpTo (zextAddr nnn) (s.pushed (s.pc + 2) h)
  | .skipKeyEq x => (s.reg x).toNat ≤ 15 ∧ u = skipIf (keyPressed s.keys (s.reg x).toNat) s
  | .skipKeyNeq x => (s.reg x).toNat ≤ 15 ∧ u = skipIf (!keyPressed s.keys (s.reg x).toNat) s
  | .waitKey x =>
    (s.keys = 0 ∧ u = s) ∨
    (s.keys ≠ 0 ∧ u = advance (s.setReg x (BitVec.ofNat 8 (keySelect s.keys))))
  | .draw x y n =>
    checkSpan s.i.toNat n.toNat = none ∧
      ∃ out, out = blit (s.reg x).toNat (s.reg y).toNat (spriteRows n s) s.display ∧
        u = advance (emitPresent (setFlag (.collision out.2) (s.withDisplay out.1)))
  | .storeBcd x =>
    checkSpan s.i.toNat 3 = none ∧ u = advance (s.store s.i.toNat (bcdDigits (s.reg x)))
  | .storeBlock x =>
    checkSpan s.i.toNat (blockLength x) = none ∧
      u = advance (advanceIndex x (s.store s.i.toNat (blockRegs x s)))
  | .loadBlock x =>
    checkSpan s.i.toNat (blockLength x) = none ∧
      u = advance (advanceIndex x (s.withV (loadRegs s.v 0 (s.bytes s.i.toNat (blockLength x)))))
  | _ => exec i s = .next u

theorem keyIndex_ok {x : Reg} {s : State} {k : Nat} (h : keyIndex x s = .ok k) :
    (s.reg x).toNat ≤ 15 ∧ k = (s.reg x).toNat := by
  rcases keyIndex_cases x s with ⟨hle, h'⟩ | ⟨_, a, _, h'⟩
  · exact ⟨hle, (Except.ok.inj (h'.symm.trans h)).symm⟩
  · cases h'.symm.trans h

/-- Everything the execute phase can do: it raises a fault on the state it was given, or the instruction
completes. -/
theorem exec_cases {i : Instr} {s u : State} (h : exec i s = .next u) :
    RaisedIn s u ∨ Completed i s u := by
  cases i
  case ret =>
    simp only [exec, execRet] at h
    split at h <;> cases h
    · exact .inl ⟨_, rfl, by simp, trivial⟩
    · next hp =>
      obtain ⟨hpos, rfl, rfl⟩ := popReturn_some hp
      exact .inr ⟨s.sp.val - 1, by omega, rfl⟩
  case call nnn =>
    simp only [exec, execCall] at h
    split at h <;> cases h
    · exact .inl ⟨_, rfl, by simp, trivial⟩
    · next hp =>
      obtain ⟨hlt, rfl⟩ := pushReturn_some hp
      exact .inr ⟨hlt, rfl⟩
  case skipKeyEq | skipKeyNeq =>
    simp only [exec, execSkipKeyEq, execSkipKeyNeq] at h
    split at h <;> cases h
    · exact .inl (raisedIn_key ‹_›)
    · next hk =>
      obtain ⟨hle, rfl⟩ := keyIndex_ok hk
      exact .inr ⟨hle, rfl⟩
  case waitKey x =>
    simp only [exec, execWaitKey] at h
    split at h <;> cases h
    · next hk => exact .inr (.inl ⟨hk, rfl⟩)
    · next hk => exact .inr (.inr ⟨hk, rfl⟩)
  case draw x y n =>
    simp only [exec, execDraw] at h
    split at h <;> cases h
    · exact .inl (raisedIn_span ‹_›)
    · exact .inr ⟨‹_›, _, rfl, rfl⟩
  case storeBcd | storeBlock | loadBlock =>
    simp only [exec, execStoreBcd, execStoreBlock, execLoadBlock] at h
    split at h <;> cases h
    · exact .inl (raisedIn_span ‹_›)
    · exact .inr ⟨‹_›, rfl⟩
  all_goals exact .inr h

/-- The frame of every completed instruction (R39). -/
theorem completed_frame {i : Instr} {s u : State} (h : Completed i s u) :
    s.Frame (writesRegs i) (writesParts i) u := by
  cases i
  case ret =>
    obtain ⟨j, _, rfl⟩ := h
    exact (frame_popped (by simp [writesParts])).trans (frame_jumpTo _)
  case call nnn =>
    obtain ⟨hlt, rfl⟩ := h
    exact (frame_pushed _ hlt (by simp [writesParts])).trans (frame_jumpTo _)
  case jump nnn =>
    cases h
    exact frame_jumpTo _
  case skipEqImm | skipNeqImm =>
    cases h
    exact frame_skipIf _
  case skipKeyEq | skipKeyNeq =>
    obtain ⟨_, rfl⟩ := h
    exact frame_skipIf _
  case waitKey x =>
    obtain ⟨_, rfl⟩ | ⟨_, rfl⟩ := h
    · exact .refl
    · exact (frame_setReg _ (by simp [writesRegs])).trans frame_advance
  case setImm | addImm | regAssign | regAnd | regXor | getTimer =>
    cases h
    exact (frame_setReg _ (by simp [writesRegs])).trans frame_advance
  case regAdd | regSub | regSubn =>
    cases h
    exact ((frame_setReg _ (by simp [writesRegs])).trans
      (frame_setFlag _ (by simp [writesRegs]))).trans frame_advance
  case regShr | regShl =>
    cases h
    exact ((frame_setFlag _ (by simp [writesRegs])).trans
      (frame_setReg _ (by simp [writesRegs]))).trans frame_advance
  case clearScreen =>
    cases h
    exact ((frame_withDisplay _ (by simp [writesParts])).trans
      (frame_emitPresent (by simp [writesParts]))).trans frame_advance
  case draw x y n =>
    obtain ⟨_, out, _, rfl⟩ := h
    exact (((frame_withDisplay _ (by simp [writesParts])).trans
      (frame_setFlag _ (by simp [writesRegs]))).trans
      (frame_emitPresent (by simp [writesParts]))).trans frame_advance
  case setIndex | addIndex | fontCharAddr =>
    cases h
    exact (frame_withI _ (by simp [writesParts])).trans frame_advance
  case setTimer x =>
    cases h
    exact (frame_withDt _ (by simp [writesParts])).trans frame_advance
  case setSoundTimer x =>
    cases h
    exact (frame_withSt _ (by simp [writesParts])).trans frame_advance
  case storeBcd x =>
    obtain ⟨_, rfl⟩ := h
    exact (frame_store _ _ (by simp [writesParts])).trans frame_advance
  case storeBlock x =>
    obtain ⟨_, rfl⟩ := h
    exact ((frame_store _ _ (by simp [writesParts])).trans
      (frame_advanceIndex _ (by simp [writesParts]))).trans frame_advance
  case loadBlock x =>
    obtain ⟨_, rfl⟩ := h
    exact ((frame_loadRegs (length_bytes _ _ _) rfl).trans
      (frame_advanceIndex _ (by simp [writesParts]))).trans frame_advance

/-- A completed instruction leaves the latch as it was. -/
theorem completed_fault {i : Instr} {s u : State} (h : Completed i s u) : u.fault = s.fault := by
  obtain ⟨-, -, -, -, hf, -⟩ := completed_frame h
  exact hf

theorem completed_cfg {i : Instr} {s u : State} (h : Completed i s u) : u.cfg = s.cfg := by
  obtain ⟨-, -, -, -, -, hc⟩ := completed_frame h
  exact hc

/-- A run of at least one byte passes the check only inside the 4096 bytes (R54). -/
theorem span_fits {base n : Nat} (hn : n ≠ 0) (h : checkSpan base n = none) : base + n ≤ 0x1000 :=
  ((checkSpan_eq_none base n).mp h).resolve_left hn

/-- A completed instruction keeps the memory, or stores a run of bytes that lies inside it (R54). -/
theorem completed_mem {i : Instr} {s u : State} (h : Completed i s u) :
    u.mem = s.mem ∨
    ∃ base bytes, base + bytes.length ≤ 0x1000 ∧ u.mem = (s.store base bytes).mem := by
  cases i
  case storeBcd x =>
    obtain ⟨hc, rfl⟩ := h
    exact .inr ⟨_, bcdDigits (s.reg x), span_fits (n := 3) (by decide) hc, rfl⟩
  case storeBlock x =>
    obtain ⟨hc, rfl⟩ := h
    refine .inr ⟨_, blockRegs x s, ?_, rfl⟩
    rw [length_blockRegs]
    exact span_fits (Nat.succ_ne_zero _) hc
  case ret =>
    obtain ⟨j, _, rfl⟩ := h
    exact .inl rfl
  case draw =>
    obtain ⟨_, out, _, rfl⟩ := h
    exact .inl rfl
  case call | skipKeyEq | skipKeyNeq | loadBlock =>
    obtain ⟨_, rfl⟩ := h
    exact .inl rfl
  case waitKey =>
    obtain ⟨_, rfl⟩ | ⟨_, rfl⟩ := h <;> exact .inl rfl
  all_goals
    cases h
    exact .inl rfl

/-- A completed instruction keeps the canonical form of the memory. -/
theorem completed_keeps_wf {i : Instr} {s u : State} (h : Completed i s u)
    (hm : s.mem.wf s.cfg.font = true) : u.mem.wf u.cfg.font = true := by
  rw [completed_cfg h]
  obtain he | ⟨base, bytes, hfit, he⟩ := completed_mem h
  · rwa [he]
  · rw [he]
    exact wf_store hfit hm

theorem completed_keys {i : Instr} {s u : State} (h : Completed i s u) : u.keys = s.keys := by
  obtain ⟨-, -, hk, -, -, -⟩ := completed_frame h
  exact hk

/-- The execute phase leaves every register alone that the instruction's row does not let it write. -/
theorem exec_reg_unwritten {i : Instr} {s u : State} {r : Reg} (h : exec i s = .next u)
    (hr : r ∉ writesRegs i) : u.reg r = s.reg r := by
  obtain ⟨c, rfl, -⟩ | hc := exec_cases h
  · exact reg_raise c s r
  · obtain ⟨hregs, -⟩ := completed_frame hc
    exact hregs r hr

/-! ### What a step does (R171) -/

/-- A fetch that succeeds had both its bytes in memory (R55). -/
theorem fetch_ok_pc {s : State} {w : Word} (h : fetch s = .ok w) : s.pc.toNat ≤ 0xFFE := by
  by_contra hgt
  cases (fetch_error s (by omega)).symm.trans h

/-- A fetch that fails names an address above `0xFFF` (R55, R193). -/
theorem fetch_error_consistent {s : State} {f : FaultCause} (h : fetch s = .error f) :
    f.Consistent := by
  by_cases hpc : s.pc.toNat ≤ 0xFFE
  · cases (fetch_ok s hpc).symm.trans h
  · cases (fetch_error s (by omega)).symm.trans h
    have := s.pc.isLt
    simp only [FaultCause.Consistent, BitVec.toNat_ofNat]
    omega

/-- The decode fault of a word carries that word (R75). -/
theorem decode_fault_word {w bad : Word} (h : decode w = .decodeFault bad) : bad = w := by
  unfold decode at h
  split at h <;> cases h
  rfl

/-- Everything a step of a running core can do: it raises a fault on the state it began with, or an
instruction completes, which moves `pc` unless it is a suspended `wait-key`. -/
theorem step_raises_or_completes {s t : State} (hs : s.fault = none) (h : step s = .next t) :
    (∃ c : FaultCause, t = raise c (beginStep s) ∧ c.Consistent) ∨
    ∃ w i, fetch s = .ok w ∧ decode w = .instr i ∧ exec i (beginStep s) = .next t ∧
      Completed i (beginStep s) t ∧ (suspended i (beginStep s) = false → t.pc ≠ s.pc) := by
  obtain ⟨f, hf, rfl⟩ | ⟨w, bad, hf, hd, rfl⟩ | ⟨w, i, u, hf, hd, hu, rfl⟩ := step_cases hs h
  · exact .inl ⟨f, rfl, fetch_error_consistent hf⟩
  · obtain rfl := decode_fault_word hd
    exact .inl ⟨_, rfl, hd⟩
  · obtain ⟨-, -, -, hraise⟩ | ⟨hkeep, hmove⟩ := commit_cases i (beginStep s) u
    · exact .inl ⟨_, hraise, trivial⟩
    · rw [hkeep]
      obtain ⟨c, rfl, -, hc⟩ | hc := exec_cases hu
      · exact .inl ⟨c, rfl, hc⟩
      · exact .inr ⟨w, i, hf, hd, hu, hc, hmove ((completed_fault hc).trans hs)⟩

/-- Settles O59: each completed instruction's own write of `pc`. -/
theorem whereEachInstructionLeavesThePc : Obligations.WhereEachInstructionLeavesThePc := by
  intro i s t hs h ht
  obtain ⟨c, rfl, -⟩ | hc := exec_cases h
  · exact absurd ht (raise_fault_ne_none c s)
  cases i
  case jump nnn =>
    cases hc
    exact zextAddr_toNat nnn
  case call nnn =>
    obtain ⟨_, rfl⟩ := hc
    exact zextAddr_toNat nnn
  case ret =>
    obtain ⟨j, hj, rfl⟩ := hc
    exact ⟨j, hj, rfl⟩
  case skipEqImm | skipNeqImm =>
    cases hc
    exact skipIf_pc_cases _ s
  case skipKeyEq | skipKeyNeq =>
    obtain ⟨_, rfl⟩ := hc
    exact skipIf_pc_cases _ s
  case waitKey =>
    obtain ⟨hk, rfl⟩ | ⟨hk, rfl⟩ := hc
    · exact (if_pos hk).symm
    · exact (if_neg hk).symm
  case draw =>
    obtain ⟨_, out, _, rfl⟩ := hc
    rfl
  case storeBcd | storeBlock | loadBlock =>
    obtain ⟨_, rfl⟩ := hc
    rfl
  all_goals
    cases hc
    rfl

/-! ### The invariant (R37) -/

/-- From a fetched instruction and return addresses in range, a completed instruction leaves `pc` at most
at `0x1002`: two or four past the instruction, at a 12-bit operand, or at a return address (R24). -/
theorem exec_pc_bounded {i : Instr} {s u : State} (hs : s.fault = none) (h : exec i s = .next u)
    (hu : u.fault = none) (hpc : s.pc.toNat ≤ 0xFFE) (hst : s.StackBounded) : u.PcBounded := by
  have hpc' := whereEachInstructionLeavesThePc i s u hs h hu
  have h2 : (s.pc + 2).toNat ≤ 0x1002 := by bv_omega
  have h4 : (s.pc + 4).toNat ≤ 0x1002 := by bv_omega
  cases i
  case jump nnn | call nnn =>
    have := nnn.isLt
    simp only at hpc'
    omega
  case ret =>
    obtain ⟨j, hj, he⟩ := hpc'
    obtain ⟨-, hle⟩ := hst j (by omega)
    rw [State.PcBounded, he]
    omega
  case skipEqImm | skipNeqImm | skipKeyEq | skipKeyNeq =>
    obtain he | he := hpc' <;> rwa [State.PcBounded, he]
  case waitKey =>
    simp only at hpc'
    rw [State.PcBounded, hpc']
    split <;> omega
  all_goals rwa [State.PcBounded, hpc']

theorem stack_mem_writesParts {i : Instr} (h : .stack ∈ writesParts i) :
    i = .ret ∨ ∃ nnn, i = .call nnn := by
  cases i <;> simp [writesParts] at h ⊢

/-- A completed instruction holds return addresses in range: a `call` at `pc` of at most `0xFFE` adds
`pc + 2`, a `return` only takes one away, and no other instruction writes the stack (R101, R103). -/
theorem completed_stack_bounded {i : Instr} {s u : State} (h : Completed i s u)
    (hpc : s.pc.toNat ≤ 0xFFE) (hst : s.StackBounded) : u.StackBounded := by
  by_cases hw : .stack ∈ writesParts i
  · obtain rfl | ⟨nnn, rfl⟩ := stack_mem_writesParts hw
    · obtain ⟨j, hj, rfl⟩ := h
      intro k hk
      simp only [jumpTo_sp, popped_sp] at hk
      exact hst k (by omega)
    · obtain ⟨hlt, rfl⟩ := h
      intro k hk
      simp only [jumpTo_sp, pushed_sp] at hk
      rw [jumpTo_slot, pushed_slot]
      split
      · constructor <;> bv_omega
      · exact hst k (by omega)
  · obtain ⟨-, hparts, -⟩ := completed_frame h
    obtain ⟨hslot, hsp⟩ := hparts .stack hw
    intro k hk
    rw [hslot]
    exact hst k (hsp ▸ hk)

/-- Raising a fault on the state a step began with keeps the invariant: only the latch and PPC change,
and the record names the instruction `pc` addresses (R196). -/
theorem inv_raise_beginStep {s : State} {c : FaultCause} (hinv : s.Inv) (hs : s.fault = none)
    (hc : c.Consistent) : (raise c (beginStep s)).Inv := by
  obtain ⟨hcfg, hmem, hpc, hst, -⟩ := hinv
  rw [raise_eq c (beginStep s) hs]
  exact ⟨hcfg, hmem, hpc, hst, rfl, rfl, hc⟩

/-- A latch with no record is consistent. -/
theorem latchConsistent_of_running {s : State} (h : s.fault = none) : s.LatchConsistent := by
  simp [State.LatchConsistent, h]

/-- Settles O16: a halted core stays as it is, a fault changes only the latch and PPC, and each part of the
invariant is kept by a completed instruction. -/
theorem stepKeepsTheInvariant : Obligations.StepKeepsTheInvariant := by
  intro s t hinv h
  by_cases hs : s.fault = none
  · obtain ⟨c, rfl, hc⟩ | ⟨w, i, hf, -, hexec, hcomp, -⟩ := step_raises_or_completes hs h
    · exact inv_raise_beginStep hinv hs hc
    · obtain ⟨hcfg, hmem, -, hst, -⟩ := hinv
      have hpc := fetch_ok_pc hf
      have ht : t.fault = none := (completed_fault hcomp).trans hs
      refine ⟨?_, ?_, ?_, ?_, latchConsistent_of_running ht⟩
      · rwa [completed_cfg hcomp]
      · exact completed_keeps_wf (s := beginStep s) hcomp hmem
      · exact exec_pc_bounded (s := beginStep s) hs hexec ht hpc hst
      · exact completed_stack_bounded (s := beginStep s) hcomp hpc hst
  · cases (step_halted s hs).symm.trans h
    exact hinv

/-- Settles O17: the reset values lie in the invariant's ranges. -/
theorem resetMeetsTheInvariant : Obligations.ResetMeetsTheInvariant := by
  have hall : ∀ p : Params, p.wellFormed = true → (State.resetOf p).Inv := by
    intro p hp
    refine ⟨hp, rfl, ?_, fun j hj => absurd hj (Nat.not_lt_zero j), trivial⟩
    have horigin : p.origin < 0x1000 := by
      simp only [Params.wellFormed, Params.originOk, Config.memSize, Bool.and_eq_true,
        decide_eq_true_eq] at hp
      omega
    exact (Nat.mod_le p.origin _).trans (by omega)
  exact ⟨hall, hall Config.params rfl⟩

/-! ### What a step moves and what it leaves -/

/-- Settles O11: the commit phase lets only a suspended `wait-key` keep `pc`, and that changes nothing. -/
theorem completedStepMovesThePc : Obligations.CompletedStepMovesThePc := by
  intro s t hs h ht
  obtain ⟨c, rfl, -⟩ | ⟨w, i, hf, hd, -, hcomp, hmove⟩ := step_raises_or_completes hs h
  · exact absurd ht (raise_fault_ne_none c _)
  · cases hsus : suspended i (beginStep s) with
    | false => exact .inl (hmove hsus)
    | true =>
      obtain ⟨x, rfl, hk⟩ := (suspended_iff i _).mp hsus
      obtain ⟨-, rfl⟩ | ⟨hne, -⟩ := hcomp
      · exact .inr ⟨⟨w, x, hf, hd⟩, hk, rfl⟩
      · exact absurd hk hne

theorem delayTimer_mem_writesParts {i : Instr} (h : .delayTimer ∈ writesParts i) :
    ∃ x, i = .setTimer x := by
  cases i <;> simp [writesParts] at h ⊢

theorem soundTimer_mem_writesParts {i : Instr} (h : .soundTimer ∈ writesParts i) :
    ∃ x, i = .setSoundTimer x := by
  cases i <;> simp [writesParts] at h ⊢

/-- Settles O58: a fault writes neither key nor timer, and by the frame a completed instruction writes no
key, and a timer only where its row has it. -/
theorem stepsLeaveKeysAndTimers : Obligations.StepsLeaveKeysAndTimers := by
  intro s t h
  by_cases hs : s.fault = none
  · obtain ⟨c, rfl, -⟩ | ⟨w, i, hf, hd, -, hcomp, -⟩ := step_raises_or_completes hs h
    · simp
    · obtain ⟨-, hparts, -⟩ := completed_frame hcomp
      refine ⟨completed_keys (s := beginStep s) hcomp, fun hne => ?_, fun hne => ?_⟩
      · obtain ⟨x, rfl⟩ := delayTimer_mem_writesParts (not_imp_comm.mp (hparts .delayTimer) hne)
        cases hcomp
        exact ⟨w, x, hf, hd, rfl⟩
      · obtain ⟨x, rfl⟩ := soundTimer_mem_writesParts (not_imp_comm.mp (hparts .soundTimer) hne)
        cases hcomp
        exact ⟨w, x, hf, hd, rfl⟩
  · cases (step_halted s hs).symm.trans h
    simp

/-- Settles O53: by cases on the latch, the fetch and the decoder, which are all `State.waiting` reads. -/
theorem waitingIsASuspendedWaitKey : Obligations.WaitingIsASuspendedWaitKey := by
  intro s
  unfold State.waiting
  cases s.fault with
  | some r => simp
  | none =>
    cases fetch s with
    | error f => simp
    | ok w =>
      cases hd : decode w with
      | decodeFault bad => simp [hd]
      | instr i => simp [hd, suspended_iff]; tauto

/-- Settles O55, by induction on the number of ticks. -/
theorem ticksCountDownToZero : Obligations.TicksCountDownToZero := by
  intro s n
  induction n generalizing s with
  | zero => exact ⟨s, rfl, rfl, rfl, rfl⟩
  | succ n ih =>
    obtain ⟨t, hrun, hdt, hst, ht⟩ := ih (tick s)
    rw [tick_dt, countDown_toNat] at hdt
    rw [tick_st, countDown_toNat] at hst
    exact ⟨t, (runOps_cons .tick _ rfl).trans hrun, by omega, by omega, ht⟩

/-- Settles O57: the frame of a completed instruction, and the run of bytes the two storing forms write. -/
theorem instructionsWriteOnlyWhatTheTableAllows :
    Obligations.InstructionsWriteOnlyWhatTheTableAllows := by
  intro i s t h
  obtain ⟨c, rfl, -⟩ | hc := exec_cases h
  · exact .inl (raise_latched c s)
  · have hframe := completed_frame hc
    refine .inr ⟨hframe, fun a ha => ?_⟩
    obtain ⟨-, hparts, -⟩ := hframe
    cases i
    case storeBcd x =>
      obtain ⟨_, rfl⟩ := hc
      refine byte_store_outside (bcdDigits (s.reg x)) s _ a fun ⟨hlo, hhi⟩ => ha ⟨hlo, ?_⟩
      have : (bcdDigits (s.reg x)).length = 3 := rfl
      omega
    case storeBlock x =>
      obtain ⟨_, rfl⟩ := hc
      refine byte_store_outside (blockRegs x s) s _ a fun ⟨hlo, hhi⟩ => ha ⟨hlo, ?_⟩
      have := length_blockRegs x s
      rw [blockLength]
      omega
    all_goals exact hparts .memory (by simp [writesParts]) a

/-! ### The flag register (R22, R121) -/

theorem flagByte_cases (b : Bool) : flagByte b = 0 ∨ flagByte b = 1 := by
  cases b <;> simp [flagByte]

/-- VF right after a flag write is 0 or 1. -/
theorem setFlag_vf (f : FlagSource) (s : State) :
    (setFlag f s).reg 15 = 0 ∨ (setFlag f s).reg 15 = 1 := by
  rw [reg_setFlag, if_pos rfl]
  exact flagByte_cases _

theorem flag_notMem_singleton {x : Reg} (h : x ≠ 15) : (15 : Reg) ∉ [x] := by
  simpa using h.symm

theorem flag_notMem_regsUpTo {x : Reg} (h : x ≠ 15) : (15 : Reg) ∉ regsUpTo x := by
  rw [mem_regsUpTo]
  bv_omega

/-- Settles O34: the flag write comes last in four of the six flag-producing rows and is untouched by the
result of a shift of another register; by the frame no other row writes VF but as its destination. -/
theorem flagRegisterRules : Obligations.FlagRegisterRules := by
  intro i s t h _
  have hkeep : 15 ∉ writesRegs i → t.reg 15 = s.reg 15 := exec_reg_unwritten h
  cases i
  case regAdd | regSub | regSubn =>
    cases h
    exact setFlag_vf _ _
  case regShr | regShl =>
    intro hx
    cases h
    rw [reg_advance, reg_setReg_other _ _ _ _ hx.symm]
    exact setFlag_vf _ _
  case draw x y n =>
    intro hin
    have hspan : checkSpan s.i.toNat n.toNat = none :=
      (checkSpan_eq_none _ _).mpr (hin.imp_left (congrArg BitVec.toNat))
    simp only [exec, execDraw, hspan] at h
    cases h
    exact setFlag_vf _ _
  case setImm | addImm | regAssign | regAnd | regXor | getTimer | waitKey =>
    exact fun hx => hkeep (flag_notMem_singleton hx)
  case loadBlock => exact fun hx => hkeep (flag_notMem_regsUpTo hx)
  all_goals exact hkeep List.not_mem_nil

/-! ### The sound timer and the count of presents are never read (R34, R181) -/

/-- The state with another sound timer and another count of presents. -/
def State.withSound (b : Byte) (n : Nat) (s : State) : State := { s with st := b, presents := n }

/-- From `s` with sound timer `b` and count `n`, where `s` itself leads to `u`: the sound timer `b'` and the
count `n'` of a state that differs from `u` there alone. Both runs write the same timer or leave theirs, and
both add the same to the count. -/
def SoundFollows (s : State) (b : Byte) (n : Nat) (u : State) (b' : Byte) (n' : Nat) : Prop :=
  ((u.st = s.st ∧ b' = b) ∨ b' = u.st) ∧ n' + s.presents = u.presents + n

theorem soundFollows_same {s u : State} (b : Byte) (n : Nat) (hst : u.st = s.st)
    (hp : u.presents = s.presents) : SoundFollows s b n u b n :=
  ⟨.inl ⟨hst, rfl⟩, by omega⟩

@[simp] theorem withSound_i (b : Byte) (n : Nat) (s : State) : (s.withSound b n).i = s.i := rfl
@[simp] theorem withSound_keys (b : Byte) (n : Nat) (s : State) :
    (s.withSound b n).keys = s.keys := rfl
@[simp] theorem keyIndex_withSound (x : Reg) (b : Byte) (n : Nat) (s : State) :
    keyIndex x (s.withSound b n) = keyIndex x s := rfl

theorem raise_withSound (c : FaultCause) (b : Byte) (n : Nat) (s : State) :
    raise c (s.withSound b n) = (raise c s).withSound b n := by
  rcases s with ⟨_, _, _, _, _, _, _, _ | r, _, _, _, _, _, _⟩ <;> rfl

/-- A fault raised with either sound timer and count leaves both. -/
theorem exec_withSound_raised {i : Instr} {s : State} {b : Byte} {n : Nat} {c : FaultCause}
    (h : exec i (s.withSound b n) = .next (raise c (s.withSound b n))) :
    ∃ b' n', exec i (s.withSound b n) = .next ((raise c s).withSound b' n') ∧
      SoundFollows s b n (raise c s) b' n' :=
  ⟨b, n, raise_withSound c b n s ▸ h, soundFollows_same b n (raise_st c s) (raise_presents c s)⟩

/-- The execute phase reads neither. -/
theorem exec_withSound {i : Instr} {s u : State} (b : Byte) (n : Nat) (h : exec i s = .next u) :
    ∃ b' n', exec i (s.withSound b n) = .next (u.withSound b' n') ∧ SoundFollows s b n u b' n' := by
  cases i
  case setSoundTimer x =>
    cases h
    exact ⟨s.reg x, n, rfl, .inr rfl, Nat.add_comm _ _⟩
  case clearScreen =>
    cases h
    exact ⟨b, n + 1, rfl, .inl ⟨rfl, rfl⟩, by simp; omega⟩
  case draw x y m =>
    simp only [exec, execDraw] at h
    split at h <;> cases h
    · next hc => exact exec_withSound_raised (by simp only [exec, execDraw, withSound_i, hc])
    · next hc =>
      exact ⟨b, n + 1, by simp only [exec, execDraw, withSound_i, hc]; rfl, .inl ⟨rfl, rfl⟩,
        by simp; omega⟩
  case ret =>
    simp only [exec, execRet] at h
    split at h <;> cases h
    · next hp =>
      have hp' : popReturn (s.withSound b n) = none :=
        (popReturn_none _).mpr ((popReturn_none s).mp hp)
      exact exec_withSound_raised (by simp only [exec, execRet, hp'])
    · next hp =>
      obtain ⟨hpos, rfl, rfl⟩ := popReturn_some hp
      have hp' := popReturn_eq (s.withSound b n) _ (Nat.sub_add_cancel hpos)
      exact ⟨b, n, by simp only [exec, execRet, hp']; rfl, soundFollows_same b n rfl rfl⟩
  case call nnn =>
    simp only [exec, execCall] at h
    split at h <;> cases h
    · next hp =>
      have hp' : pushReturn ((s.withSound b n).pc + 2) (s.withSound b n) = none :=
        (pushReturn_none _ _).mpr ((pushReturn_none _ s).mp hp)
      exact exec_withSound_raised (by simp only [exec, execCall, hp'])
    · next hp =>
      obtain ⟨hlt, rfl⟩ := pushReturn_some hp
      have hp' := pushReturn_eq ((s.withSound b n).pc + 2) (s.withSound b n) hlt
      exact ⟨b, n, by simp only [exec, execCall, hp']; rfl, soundFollows_same b n rfl rfl⟩
  case storeBcd | storeBlock | loadBlock =>
    simp only [exec, execStoreBcd, execStoreBlock, execLoadBlock] at h
    split at h <;> cases h
    · next hc =>
      exact exec_withSound_raised
        (by simp only [exec, execStoreBcd, execStoreBlock, execLoadBlock, withSound_i, hc])
    · next hc =>
      exact ⟨b, n,
        by simp only [exec, execStoreBcd, execStoreBlock, execLoadBlock, withSound_i, hc]; rfl,
        soundFollows_same b n rfl rfl⟩
  case skipKeyEq | skipKeyNeq =>
    simp only [exec, execSkipKeyEq, execSkipKeyNeq] at h
    split at h <;> cases h
    · next hk =>
      exact exec_withSound_raised
        (by simp only [exec, execSkipKeyEq, execSkipKeyNeq, keyIndex_withSound, hk])
    · next hk =>
      exact ⟨b, n, by simp only [exec, execSkipKeyEq, execSkipKeyNeq, keyIndex_withSound, hk]; rfl,
        soundFollows_same b n rfl rfl⟩
  case waitKey x =>
    simp only [exec, execWaitKey] at h
    split at h <;> cases h
    · next hk => exact ⟨b, n, by simp [exec, execWaitKey, hk], soundFollows_same b n rfl rfl⟩
    · next hk =>
      exact ⟨b, n, by simp only [exec, execWaitKey, withSound_keys, hk]; rfl,
        soundFollows_same b n rfl rfl⟩
  all_goals
    cases h
    exact ⟨b, n, rfl, soundFollows_same b n rfl rfl⟩

/-- Nor does the commit phase. -/
theorem commit_withSound (i : Instr) {s u : State} {b b' : Byte} {n n' : Nat}
    (h : SoundFollows s b n u b' n') :
    ∃ b'' n'', commit i (s.withSound b n) (u.withSound b' n') = (commit i s u).withSound b'' n'' ∧
      SoundFollows s b n (commit i s u) b'' n'' := by
  by_cases hc : u.fault = none ∧ suspended i s = false ∧ u.pc = s.ppc
  · have hc' : (u.withSound b' n').fault = none ∧ suspended i (s.withSound b n) = false ∧
        (u.withSound b' n').pc = (s.withSound b n).ppc := hc
    rw [commit, commit, if_pos hc, if_pos hc']
    exact ⟨b, n, raise_withSound .., soundFollows_same b n (raise_st ..) (raise_presents ..)⟩
  · have hc' : ¬ ((u.withSound b' n').fault = none ∧ suspended i (s.withSound b n) = false ∧
        (u.withSound b' n').pc = (s.withSound b n).ppc) := hc
    rw [commit, commit, if_neg hc, if_neg hc']
    exact ⟨b', n', rfl, h⟩

/-- Nor does a step. -/
theorem step_withSound {s t : State} (b : Byte) (n : Nat) (h : step s = .next t) :
    ∃ b' n', step (s.withSound b n) = .next (t.withSound b' n') ∧ SoundFollows s b n t b' n' := by
  by_cases hs : s.fault = none
  · obtain ⟨f, hf, rfl⟩ | ⟨w, bad, hf, hd, rfl⟩ | ⟨w, i, u, hf, hd, hu, rfl⟩ := step_cases hs h
    · refine ⟨b, n, ?_, soundFollows_same b n (raise_st ..) (raise_presents ..)⟩
      rw [← raise_withSound]
      exact step_of_fetch_fault (s := s.withSound b n) hs hf
    · refine ⟨b, n, ?_, soundFollows_same b n (raise_st ..) (raise_presents ..)⟩
      rw [← raise_withSound]
      exact step_of_illegal (s := s.withSound b n) hs hf hd
    · obtain ⟨b', n', hu', hfol⟩ := exec_withSound b n hu
      obtain ⟨b'', n'', hc, hfol'⟩ := commit_withSound i hfol
      exact ⟨b'', n'', hc ▸ step_of_decode (s := s.withSound b n) hs hf hd hu', hfol'⟩
  · cases (step_halted s hs).symm.trans h
    exact ⟨b, n, step_halted (s.withSound b n) hs, soundFollows_same b n rfl rfl⟩

/-- Settles O60: the next state with another sound timer and count is the next state, with its own. -/
theorem soundTimerIsNeverRead : Obligations.SoundTimerIsNeverRead := by
  intro s t b n h
  obtain ⟨b', n', hstep, hst, hpresents⟩ := step_withSound b n h
  exact ⟨t.withSound b' n', hstep, rfl, hst, hpresents⟩

end Sys2Proof.Machine

/-! PROOFS. The statements of 20_memory.md: the fetch and its faults, the checked access of one cell, the
reset values, and the fetch of stored bytes. -/
namespace Sys2Proof.Machine

/-! ### The fetch (R55) -/

/-- A word made of two bytes is big-endian: the first byte counts 256 times (R55). -/
theorem append_bytes_toNat (hi lo : Byte) :
    (hi ++ lo : Word).toNat = hi.toNat * 256 + lo.toNat := by
  rw [BitVec.toNat_append, ← Nat.shiftLeft_add_eq_or_of_lt lo.isLt, Nat.shiftLeft_eq]

/-- The whole state after a step whose fetch faults: `PPC` and `FAULT` alone differ (R55, R196). -/
theorem step_of_fetch_error {s : State} {f : FaultCause} (hs : s.fault = none)
    (hf : fetch s = .error f) :
    step s = .next { s with ppc := s.pc, fault := some ⟨f, s.pc⟩ } := by
  rw [step_of_fetch_fault hs hf, raise_eq f (beginStep s) hs]
  rfl

/-- Settles O6: in range the fetch joins the two bytes; out of range it reports `max(pc, 0x1000)`, which is
`0x1000` at `0xFFF` and `pc` itself above. -/
theorem fetchIsBigEndianAndChecked : Obligations.FetchIsBigEndianAndChecked := by
  intro s
  refine ⟨fun hpc => ⟨_, fetch_ok s hpc, append_bytes_toNat _ _⟩, fun hpc => ?_, fun hpc => ?_⟩
  · have hf := fetch_error s (by omega)
    rw [hpc] at hf
    exact ⟨hf, fun hs => step_of_fetch_error hs hf⟩
  · have hf := fetch_error s (by omega)
    rw [Nat.max_eq_left hpc, BitVec.ofNat_toNat, BitVec.setWidth_eq] at hf
    exact ⟨hf, fun hs => step_of_fetch_error hs hf⟩

/-! ### One cell (R52, R53) -/

theorem memWrite_ok (s : State) (a : Nat) (b : Byte) (h : a ≤ 0xFFF) :
    memWrite a b s = .ok (s.store a [b]) := by
  simp [memWrite, (inMemory_iff a).mpr h]

theorem memWrite_error (s : State) (a : Nat) (b : Byte) (h : 0xFFF < a) :
    memWrite a b s = .error (.outOfBounds .mem (BitVec.ofNat 16 a)) := by
  have hout : ¬ inMemory a = true := by
    rw [inMemory_iff]
    omega
  simp [memWrite, hout, memFault]

/-- Settles O21: a write is a store of one byte, read back at its address and nowhere else. -/
theorem readAfterWrite : Obligations.ReadAfterWrite := by
  refine ⟨fun s a b h => ⟨memRead_ok s a h, s.store a [b], memWrite_ok s a b h, rfl, ?_, ?_⟩,
    fun s a b h => ⟨memRead_error s a h, memWrite_error s a b h⟩⟩
  · exact byte_store_inside [b] s a 0 b rfl
  · intro a' hne
    refine byte_store_outside [b] s a a' ?_
    simp only [List.length_singleton]
    omega

/-! ### Reset (R36, R57) -/

/-- R6's constraints on what the reset values are read from: `ORIGIN` and the font. -/
theorem wellFormed_bounds {p : Params} (h : p.wellFormed = true) :
    p.origin < 0x1000 ∧ p.font.length = 80 := by
  simp only [Params.wellFormed, Params.originOk, Params.fontOk, Config.memSize, Bool.and_eq_true,
    decide_eq_true_eq, beq_iff_eq] at h
  omega

/-- Every register is zero after `Reset`. -/
theorem reg_resetOf (p : Params) (r : Reg) : (State.resetOf p).reg r = 0 := by
  simp [State.reg, State.resetOf]

/-- After `Reset` memory reads as its reset contents: the font, then zeros. -/
theorem byte_resetOf (p : Params) (a : Nat) :
    (State.resetOf p).byte a = (p.font[a]?).getD 0 := rfl

/-- The display after `Reset` is a cleared grid. -/
theorem pixel_resetOf (p : Params) (x y : Nat) : (State.resetOf p).pixel x y = false :=
  pixel_clear p.displayW p.displayH x y

/-- Settles O19: each reset value is the one written in `State.resetOf`; R6 gives the font its 80 bytes and
keeps `ORIGIN` below `0x1000`, so that its 16 bits are the number. -/
theorem resetValues : Obligations.ResetValues := by
  refine ⟨rfl, rfl, fun p hp => ?_⟩
  obtain ⟨horigin, hfont⟩ := wellFormed_bounds hp
  refine ⟨rfl, Nat.mod_eq_of_lt (by omega), reg_resetOf p, rfl, rfl, rfl, pixel_resetOf p, rfl, rfl,
    rfl, fun d j hd hj => ?_, fun a ha => ?_⟩
  · have hlt : d * 5 + j < p.font.length := by omega
    rw [byte_resetOf, List.getElem?_eq_getElem hlt, Option.getD_some]
  · rw [byte_resetOf, List.getElem?_eq_none (by omega), Option.getD_none]

/-! ### Stored bytes are fetched (R64) -/

/-- `store-block` whose block lies inside memory stores it and moves `I` and `pc` (R134). -/
theorem exec_storeBlock {s : State} {x : Reg} (h : s.i.toNat + x.toNat ≤ 0xFFF) :
    exec (.storeBlock x) s =
      .next (advance (advanceIndex x (s.store s.i.toNat (blockRegs x s)))) := by
  have hspan : checkSpan s.i.toNat (blockLength x) = none :=
    (checkSpan_eq_none ..).mpr (.inr (by simp only [blockLength]; omega))
  simp only [exec, execStoreBlock, hspan]

/-- After a block is stored at `I`, the byte at `I + r` is register `r` (R134). -/
theorem byte_store_blockRegs (s : State) {x r : Reg} (h : r.toNat ≤ x.toNat) :
    (s.store s.i.toNat (blockRegs x s)).byte (s.i.toNat + r.toNat) = s.reg r :=
  byte_store_inside _ s _ _ _ (getElem?_blockRegs x r s h)

/-- Settles O23: the next `pc` is the old `I`, where the block put `V[0]` and `V[1]`. -/
theorem storedBytesAreFetched : Obligations.StoredBytesAreFetched := by
  intro s x hx hfits hi
  have hpos : 1 ≤ x.toNat := Nat.pos_of_ne_zero fun h0 => hx (BitVec.eq_of_toNat_eq h0)
  refine ⟨_, exec_storeBlock hfits, ?_⟩
  have hfetch := fetch_ok (advance (advanceIndex x (s.store s.i.toNat (blockRegs x s))))
    (by simp only [advance_pc, advanceIndex_pc, store_pc, ← hi]; omega)
  have hV0 := byte_store_blockRegs s (r := 0) (Nat.zero_le x.toNat)
  have hV1 := byte_store_blockRegs s (r := 1) hpos
  simp only [advance_pc, advanceIndex_pc, store_pc, ← hi, advance_byte, advanceIndex_byte] at hfetch
  rw [hfetch]
  exact congrArg Except.ok (congrArg₂ (· ++ ·) hV0 hV1)

end Sys2Proof.Machine

/-! PROOFS. The statements of 30_encoding.md: the rows of the opcode map as match and mask (R76), the word
of each format (R72), and the decoder, first the class, then the sub-opcode (R75). -/
namespace Sys2Proof

open Laws.OpcodeRow

/-! ### A word is the word of its fields (R71, R72) -/

section Formats

variable {w : Word} {c : Nibble}

theorem encodeXByte_of_fields {nn : Byte} (hc : fieldClass w = c) (hnn : fieldNN w = nn) :
    encodeXByte c (fieldX w) nn = w := by
  have h : encodeXYN c (fieldX w) (fieldY w) (fieldN w) = w := hc ▸ encodeXYN_fields w
  have hlow : fieldY w ++ fieldN w = nn := by
    rw [← hnn, ← h, encodeXYN_eq, fieldNN_encodeXByte, ← encodeXYN_eq, h]
  rw [← hlow, ← encodeXYN_eq, h]

theorem encodeAddr_of_fields {nnn : Addr} (hc : fieldClass w = c) (hnnn : fieldNNN w = nnn) :
    encodeAddr c nnn = w := by
  have h := encodeXByte_of_fields hc (rfl : fieldNN w = fieldNN w)
  have hlow : fieldX w ++ fieldNN w = nnn := by
    rw [← hnnn, ← h, encodeXByte_eq, fieldNNN_encodeAddr, ← encodeXByte_eq, h]
  rw [← hlow, ← encodeXByte_eq, h]

theorem encodeXYN_of_fields {n : Nibble} (hc : fieldClass w = c) (hn : fieldN w = n) :
    encodeXYN c (fieldX w) (fieldY w) n = w :=
  hc ▸ hn ▸ encodeXYN_fields w

/-- The mask 0xFF0F clears the `Y` field and nothing else. -/
theorem encodeXYN_and_clear_y (c x y n : Nibble) :
    encodeXYN c x y n &&& 0xFF0F = encodeXYN c x 0 n := by
  have hmask : (0xFF0F : Word) = encodeXYN 0xF 0xF 0x0 0xF := rfl
  have hones : ∀ a : Nibble, a &&& 0xF = a := fun _ => BitVec.and_allOnes
  have hzero : y &&& 0x0 = 0x0 := BitVec.and_zero
  rw [hmask, encodeXYN, encodeXYN, BitVec.and_append, BitVec.and_append, BitVec.and_append,
    hones, hones, hones, hzero]
  rfl

/-- A shift is assembled with `Y = 0`: its word is the decoded word with `Y` cleared (R77). -/
theorem encodeXYN_zero_y_of_fields {n : Nibble} (hc : fieldClass w = c) (hn : fieldN w = n) :
    encodeXYN c (fieldX w) 0 n = w &&& 0xFF0F := by
  rw [← encodeXYN_and_clear_y c (fieldX w) (fieldY w) n, encodeXYN_of_fields hc hn]

end Formats

/-! ### The rows are match and mask (R76) -/

@[simp] theorem subMatches_none (w : Word) : subMatches .none w = true := rfl
@[simp] theorem subMatches_n (v : Nibble) (w : Word) : subMatches (.n v) w = (fieldN w == v) := rfl
@[simp] theorem subMatches_nn (v : Byte) (w : Word) : subMatches (.nn v) w = (fieldNN w == v) := rfl
@[simp] theorem subMatches_nnn (v : Addr) (w : Word) : subMatches (.nnn v) w = (fieldNNN w == v) := rfl

theorem rowMatches_iff (w : Word) (r : OpRow) :
    rowMatches w r = true ↔ fieldClass w = r.cls ∧ subMatches r.sub w = true := by
  simp [rowMatches]

theorem and_mask_class (w : Word) : w &&& 0xF000 = encodeAddr (fieldClass w) 0 := by
  have h := encodeAddr_masked (fieldClass w) (fieldNNN w)
  rwa [encodeAddr_of_fields rfl rfl] at h

theorem and_mask_xy (w : Word) : w &&& 0xF00F = encodeXYN (fieldClass w) 0 0 (fieldN w) := by
  have h := encodeXY_masked (fieldClass w) (fieldX w) (fieldY w) (fieldN w)
  rwa [encodeXYN_fields] at h

theorem and_mask_x (w : Word) : w &&& 0xF0FF = encodeXByte (fieldClass w) 0 (fieldNN w) := by
  have h := encodeX_masked (fieldClass w) (fieldX w) (fieldNN w)
  rwa [encodeXByte_of_fields rfl rfl] at h

/-- The match value of a class 8 row is the word of format XYN with both operands zero. -/
theorem append_zero_append (c v : Nibble) : c ++ (0 : Byte) ++ v = encodeXYN c 0 0 v := by
  have hc : ∀ c : Nibble, c ++ (0 : Byte) = c ++ (0 : Nibble) ++ (0 : Nibble) := by decide
  exact congrArg (· ++ v) (hc c)

/-- Under its mask a word shows its class and its sub-opcode, and the row's match value is the word with
the row's class and sub-opcode; equal words have equal fields. -/
theorem rowMatches_iff_mask (w : Word) (r : OpRow) :
    rowMatches w r = true ↔ w &&& rowMask r = rowCode r := by
  obtain ⟨_, c, sub, _⟩ := r
  rw [rowMatches_iff]
  cases sub with
  | none =>
    have hcode : c ++ (0 : Addr) = encodeAddr c 0 := rfl
    simp only [rowMask, rowCode, subMatches_none, and_true, and_mask_class, hcode]
    refine ⟨fun hc => hc ▸ rfl, fun h => ?_⟩
    simpa only [fieldClass_encodeAddr] using congrArg fieldClass h
  | n v =>
    simp only [rowMask, rowCode, subMatches_n, beq_iff_eq, and_mask_xy, append_zero_append]
    refine ⟨fun ⟨hc, hv⟩ => hc ▸ hv ▸ rfl, fun h => ⟨?_, ?_⟩⟩
    · simpa only [fieldClass_encodeXYN] using congrArg fieldClass h
    · simpa only [fieldN_encodeXYN] using congrArg fieldN h
  | nn v =>
    have hcode : c ++ (0 : Nibble) ++ v = encodeXByte c 0 v := rfl
    simp only [rowMask, rowCode, subMatches_nn, beq_iff_eq, and_mask_x, hcode]
    refine ⟨fun ⟨hc, hv⟩ => hc ▸ hv ▸ rfl, fun h => ⟨?_, ?_⟩⟩
    · simpa only [fieldClass_encodeXByte] using congrArg fieldClass h
    · simpa only [fieldNN_encodeXByte] using congrArg fieldNN h
  | nnn v =>
    have hmask : w &&& 0xFFFF = w := BitVec.and_allOnes
    simp only [rowMask, rowCode, subMatches_nnn, beq_iff_eq, hmask]
    refine ⟨fun ⟨hc, hv⟩ => (encodeAddr_of_fields hc hv).symm, ?_⟩
    rintro rfl
    exact ⟨fieldClass_encodeAddr c v, fieldNNN_encodeAddr c v⟩

/-- Two rows whose match values differ in a bit that both masks fix. -/
def OpRow.Apart (r q : OpRow) : Prop := rowCode r &&& rowMask q ≠ rowCode q &&& rowMask r

theorem OpRow.Apart.not_rowMatches {r q : OpRow} (h : r.Apart q) {w : Word}
    (hr : rowMatches w r = true) : ¬ rowMatches w q = true := by
  intro hq
  rw [rowMatches_iff_mask] at hr hq
  refine h ?_
  rw [← hr, ← hq]
  ac_rfl

theorem opcodeTable_pairwise_apart : opcodeTable.Pairwise OpRow.Apart := by
  unfold OpRow.Apart
  decide

/-- No word selects two rows: they would be apart. -/
theorem length_filter_rowMatches (w : Word) : (opcodeTable.filter (rowMatches w)).length ≤ 1 := by
  have hapart := opcodeTable_pairwise_apart.filter (rowMatches w)
  have hsel : ∀ r ∈ opcodeTable.filter (rowMatches w), rowMatches w r = true :=
    fun r hr => List.of_mem_filter hr
  generalize opcodeTable.filter (rowMatches w) = l at hapart hsel
  match l with
  | [] | [_] => simp
  | r :: q :: _ =>
    have hrq : r.Apart q := List.rel_of_pairwise_cons hapart (by simp)
    exact absurd (hsel q (by simp)) (hrq.not_rowMatches (hsel r (by simp)))

/-- Settles O5: selection is match and mask for any row, and the 29 rows are pairwise apart. -/
theorem opcodeRowsAreMatchAndMaskAndDisjoint : Obligations.OpcodeRowsAreMatchAndMaskAndDisjoint :=
  ⟨fun w r _ => rowMatches_iff_mask w r, length_filter_rowMatches⟩

/-! ### Encode of decode (R76, R77) -/

theorem row_of_decode {w : Word} {i : Instr} (h : decode w = .instr i) :
    ∃ r ∈ opcodeTable, rowMatches w r = true ∧ i = r.build w := by
  unfold decode at h
  split at h <;> cases h
  next r hr => exact ⟨r, List.mem_of_find?_eq_some hr, List.find?_some hr, rfl⟩

/-- What a decoded word is assembled back to: the word, with `Y` cleared for the two shifts (R77). -/
def reassembled (w : Word) : Instr → Word
  | .regShr _ | .regShl _ => w &&& 0xFF0F
  | _ => w

/-! The three parts of the table: the word has the row's class and sub-opcode, and the row's operands are
the word's other fields, so each conjunct is the word of its format. -/

theorem encode_build_low (w : Word) :
    ∀ r ∈ opcodeTableLow, rowMatches w r = true →
      encode (r.build w) = reassembled w (r.build w) := by
  simp only [opcodeTableLow, List.forall_mem_cons, List.not_mem_nil, rowMatches_iff, subMatches_none,
    subMatches_nnn, beq_iff_eq, and_true, false_implies, implies_true, true_implies, and_imp]
  exact ⟨encodeAddr_of_fields, encodeAddr_of_fields, (encodeAddr_of_fields · rfl),
    (encodeAddr_of_fields · rfl), (encodeXByte_of_fields · rfl), (encodeXByte_of_fields · rfl),
    (encodeXByte_of_fields · rfl), (encodeXByte_of_fields · rfl)⟩

theorem encode_build_alu (w : Word) :
    ∀ r ∈ opcodeTableAlu, rowMatches w r = true →
      encode (r.build w) = reassembled w (r.build w) := by
  simp only [opcodeTableAlu, List.forall_mem_cons, List.not_mem_nil, rowMatches_iff, subMatches_n,
    beq_iff_eq, false_implies, implies_true, and_true, and_imp]
  exact ⟨encodeXYN_of_fields, encodeXYN_of_fields, encodeXYN_of_fields, encodeXYN_of_fields,
    encodeXYN_of_fields, encodeXYN_zero_y_of_fields, encodeXYN_of_fields, encodeXYN_zero_y_of_fields⟩

theorem encode_build_high (w : Word) :
    ∀ r ∈ opcodeTableHigh, rowMatches w r = true →
      encode (r.build w) = reassembled w (r.build w) := by
  simp only [opcodeTableHigh, List.forall_mem_cons, List.not_mem_nil, rowMatches_iff, subMatches_none,
    subMatches_nn, beq_iff_eq, and_true, false_implies, implies_true, true_implies, and_imp]
  exact ⟨(encodeAddr_of_fields · rfl), (encodeXYN_of_fields · rfl), encodeXByte_of_fields,
    encodeXByte_of_fields, encodeXByte_of_fields, encodeXByte_of_fields, encodeXByte_of_fields,
    encodeXByte_of_fields, encodeXByte_of_fields, encodeXByte_of_fields, encodeXByte_of_fields,
    encodeXByte_of_fields, encodeXByte_of_fields⟩

theorem encode_build {w : Word} {r : OpRow} (hr : r ∈ opcodeTable) (hm : rowMatches w r = true) :
    encode (r.build w) = reassembled w (r.build w) := by
  simp only [opcodeTable, List.mem_append] at hr
  obtain (hr | hr) | hr := hr
  · exact encode_build_low w r hr hm
  · exact encode_build_alu w r hr hm
  · exact encode_build_high w r hr hm

/-- Settles O3: the word selects the row that built the instruction, and what a selected row builds
assembles back to the word. -/
theorem encodeOfDecodeIsTheWord : Obligations.EncodeOfDecodeIsTheWord := by
  intro w i h
  obtain ⟨r, hr, hm, rfl⟩ := row_of_decode h
  exact encode_build hr hm

/-! ### Decode: the class, then the sub-opcode (R75) -/

/-- The decode of a word by rows of its class: the sub-opcode selects. -/
def decodeIn (rows : List OpRow) (w : Word) : Decoded :=
  match rows.find? (fun r => subMatches r.sub w) with
  | some r => .instr (r.build w)
  | none   => .decodeFault w

theorem decodeIn_nil (w : Word) : decodeIn [] w = .decodeFault w := rfl

theorem decodeIn_cons (r : OpRow) (rows : List OpRow) (w : Word) :
    decodeIn (r :: rows) w =
      if subMatches r.sub w = true then .instr (r.build w) else decodeIn rows w := by
  cases h : subMatches r.sub w <;> simp [decodeIn, h]

/-- The rows of one class. -/
def classRows (c : Nibble) : List OpRow := opcodeTable.filter fun r => c == r.cls

section Classes

variable {w : Word}

theorem decode_of_class {c : Nibble} (h : fieldClass w = c) :
    decode w = decodeIn (classRows c) w := by
  rw [decode, find_eq_find_in_class, h]
  rfl

theorem decode_class_0 (h : fieldClass w = 0x0) :
    decode w = if w = 0x00E0 then .instr .clearScreen else if w = 0x00EE then .instr .ret
      else .decodeFault w := by
  have hw (nnn : Addr) : fieldNNN w = nnn ↔ w = encodeAddr 0x0 nnn :=
    ⟨fun hn => (encodeAddr_of_fields h hn).symm, fun hn => hn ▸ fieldNNN_encodeAddr 0x0 nnn⟩
  have hrows : classRows 0x0 = opcodeTableLow.take 2 := rfl
  rw [decode_of_class h, hrows]
  simp only [opcodeTableLow, List.take, decodeIn_cons, decodeIn_nil, subMatches_nnn, beq_iff_eq, hw]
  rfl

/-! In the classes 1 to 4, 6, 7, A and D the class alone selects: one row, without a sub-opcode. -/

theorem decode_class_1 (h : fieldClass w = 0x1) :
    decode w = .instr (.jump (fieldNNN w)) := decode_of_class h

theorem decode_class_2 (h : fieldClass w = 0x2) :
    decode w = .instr (.call (fieldNNN w)) := decode_of_class h

theorem decode_class_3 (h : fieldClass w = 0x3) :
    decode w = .instr (.skipEqImm (fieldX w) (fieldNN w)) := decode_of_class h

theorem decode_class_4 (h : fieldClass w = 0x4) :
    decode w = .instr (.skipNeqImm (fieldX w) (fieldNN w)) := decode_of_class h

theorem decode_class_6 (h : fieldClass w = 0x6) :
    decode w = .instr (.setImm (fieldX w) (fieldNN w)) := decode_of_class h

theorem decode_class_7 (h : fieldClass w = 0x7) :
    decode w = .instr (.addImm (fieldX w) (fieldNN w)) := decode_of_class h

theorem decode_class_A (h : fieldClass w = 0xA) :
    decode w = .instr (.setIndex (fieldNNN w)) := decode_of_class h

theorem decode_class_D (h : fieldClass w = 0xD) :
    decode w = .instr (.draw (fieldX w) (fieldY w) (fieldN w)) := decode_of_class h

/-! In class 8 `N` selects, in the classes E and F `NN`. -/

theorem decode_class_8 (h : fieldClass w = 0x8) :
    decode w =
      if (fieldN w).toNat = 0x0 then .instr (.regAssign (fieldX w) (fieldY w))
      else if (fieldN w).toNat = 0x2 then .instr (.regAnd (fieldX w) (fieldY w))
      else if (fieldN w).toNat = 0x3 then .instr (.regXor (fieldX w) (fieldY w))
      else if (fieldN w).toNat = 0x4 then .instr (.regAdd (fieldX w) (fieldY w))
      else if (fieldN w).toNat = 0x5 then .instr (.regSub (fieldX w) (fieldY w))
      else if (fieldN w).toNat = 0x6 then .instr (.regShr (fieldX w))
      else if (fieldN w).toNat = 0x7 then .instr (.regSubn (fieldX w) (fieldY w))
      else if (fieldN w).toNat = 0xE then .instr (.regShl (fieldX w))
      else .decodeFault w := by
  have hrows : classRows 0x8 = opcodeTableAlu := rfl
  simp only [decode_of_class h, hrows, opcodeTableAlu, decodeIn_cons, decodeIn_nil, subMatches_n,
    beq_iff_eq, ← BitVec.toNat_inj]
  rfl

theorem decode_class_E (h : fieldClass w = 0xE) :
    decode w =
      if (fieldNN w).toNat = 0x9E then .instr (.skipKeyEq (fieldX w))
      else if (fieldNN w).toNat = 0xA1 then .instr (.skipKeyNeq (fieldX w))
      else .decodeFault w := by
  have hrows : classRows 0xE = (opcodeTableHigh.drop 2).take 2 := rfl
  simp only [decode_of_class h, hrows, opcodeTableHigh, List.drop, List.take, decodeIn_cons,
    decodeIn_nil, subMatches_nn, beq_iff_eq, ← BitVec.toNat_inj]
  rfl

theorem decode_class_F (h : fieldClass w = 0xF) :
    decode w =
      if (fieldNN w).toNat = 0x07 then .instr (.getTimer (fieldX w))
      else if (fieldNN w).toNat = 0x0A then .instr (.waitKey (fieldX w))
      else if (fieldNN w).toNat = 0x15 then .instr (.setTimer (fieldX w))
      else if (fieldNN w).toNat = 0x18 then .instr (.setSoundTimer (fieldX w))
      else if (fieldNN w).toNat = 0x1E then .instr (.addIndex (fieldX w))
      else if (fieldNN w).toNat = 0x29 then .instr (.fontCharAddr (fieldX w))
      else if (fieldNN w).toNat = 0x33 then .instr (.storeBcd (fieldX w))
      else if (fieldNN w).toNat = 0x55 then .instr (.storeBlock (fieldX w))
      else if (fieldNN w).toNat = 0x65 then .instr (.loadBlock (fieldX w))
      else .decodeFault w := by
  have hrows : classRows 0xF = opcodeTableHigh.drop 4 := rfl
  simp only [decode_of_class h, hrows, opcodeTableHigh, List.drop, decodeIn_cons, decodeIn_nil,
    subMatches_nn, beq_iff_eq, ← BitVec.toNat_inj]
  rfl

theorem decode_class_undefined (h : ∀ r ∈ opcodeTable, fieldClass w ≠ r.cls) :
    decode w = .decodeFault w := by
  have hrows : classRows (fieldClass w) = [] :=
    List.filter_eq_nil_iff.mpr fun r hr => by simpa using h r hr
  rw [decode_of_class rfl, hrows, decodeIn_nil]

end Classes

/-! ### Decode of encode (R72, R76) -/

/-- Settles O2: an encoded word has its instruction's class and sub-opcode, so the decode of the class
selects the instruction's row, and the row reads the operands back from the fields that hold them. -/
theorem decodeOfEncodeIsTheInstruction : Obligations.DecodeOfEncodeIsTheInstruction := by
  intro i
  cases i
  case clearScreen | ret => rfl
  case jump nnn => rw [encode, decode_class_1 (fieldClass_encodeAddr ..), fieldNNN_encodeAddr]
  case call nnn => rw [encode, decode_class_2 (fieldClass_encodeAddr ..), fieldNNN_encodeAddr]
  case setIndex nnn => rw [encode, decode_class_A (fieldClass_encodeAddr ..), fieldNNN_encodeAddr]
  case skipEqImm x nn =>
    rw [encode, decode_class_3 (fieldClass_encodeXByte ..), fieldX_encodeXByte, fieldNN_encodeXByte]
  case skipNeqImm x nn =>
    rw [encode, decode_class_4 (fieldClass_encodeXByte ..), fieldX_encodeXByte, fieldNN_encodeXByte]
  case setImm x nn =>
    rw [encode, decode_class_6 (fieldClass_encodeXByte ..), fieldX_encodeXByte, fieldNN_encodeXByte]
  case addImm x nn =>
    rw [encode, decode_class_7 (fieldClass_encodeXByte ..), fieldX_encodeXByte, fieldNN_encodeXByte]
  case draw x y n =>
    rw [encode, decode_class_D (fieldClass_encodeXYN ..), fieldX_encodeXYN, fieldY_encodeXYN,
      fieldN_encodeXYN]
  case regAssign | regAnd | regXor | regAdd | regSub | regShr | regSubn | regShl =>
    rw [encode, decode_class_8 (fieldClass_encodeXYN ..), fieldX_encodeXYN, fieldY_encodeXYN,
      fieldN_encodeXYN]
    rfl
  case skipKeyEq | skipKeyNeq =>
    rw [encode, decode_class_E (fieldClass_encodeXByte ..), fieldX_encodeXByte, fieldNN_encodeXByte]
    rfl
  all_goals
    rw [encode, decode_class_F (fieldClass_encodeXByte ..), fieldX_encodeXByte, fieldNN_encodeXByte]
    rfl

/-! ### The case tree (R75) -/

theorem ofNat_eq_fieldX (w : Word) : BitVec.ofNat 4 (w.toNat / 0x100) = fieldX w :=
  BitVec.eq_of_toNat_eq (fieldX_toNat w).symm

theorem ofNat_eq_fieldY (w : Word) : BitVec.ofNat 4 (w.toNat / 0x10) = fieldY w :=
  BitVec.eq_of_toNat_eq (fieldY_toNat w).symm

theorem ofNat_eq_fieldNN (w : Word) : BitVec.ofNat 8 w.toNat = fieldNN w :=
  BitVec.eq_of_toNat_eq (fieldNN_toNat w).symm

theorem ofNat_eq_fieldNNN (w : Word) : BitVec.ofNat 12 w.toNat = fieldNNN w :=
  BitVec.eq_of_toNat_eq (fieldNNN_toNat w).symm

/-- Settles O4: the tree's numbers are the fields of the word (R71), and each branch of the tree is the
decode of its class. -/
theorem decodeIsTheCaseTree : Obligations.DecodeIsTheCaseTree := by
  intro w
  rw [ofNat_eq_fieldX, ofNat_eq_fieldY, ofNat_eq_fieldNN, ofNat_eq_fieldNNN, ← fieldClass_toNat,
    ← fieldN_toNat, ← fieldNN_toNat]
  dsimp only
  rw [BitVec.ofNat_toNat, BitVec.setWidth_eq]
  have hcls {v : Nibble} (h : (fieldClass w).toNat = v.toNat) : fieldClass w = v :=
    BitVec.eq_of_toNat_eq h
  symm
  refine ite_eq_iff'.mpr ⟨fun h => (decode_class_0 (hcls h)).symm, fun h0 => ?_⟩
  refine ite_eq_iff'.mpr ⟨fun h => (decode_class_1 (hcls h)).symm, fun h1 => ?_⟩
  refine ite_eq_iff'.mpr ⟨fun h => (decode_class_2 (hcls h)).symm, fun h2 => ?_⟩
  refine ite_eq_iff'.mpr ⟨fun h => (decode_class_3 (hcls h)).symm, fun h3 => ?_⟩
  refine ite_eq_iff'.mpr ⟨fun h => (decode_class_4 (hcls h)).symm, fun h4 => ?_⟩
  refine ite_eq_iff'.mpr ⟨fun h => (decode_class_6 (hcls h)).symm, fun h6 => ?_⟩
  refine ite_eq_iff'.mpr ⟨fun h => (decode_class_7 (hcls h)).symm, fun h7 => ?_⟩
  refine ite_eq_iff'.mpr ⟨fun h => (decode_class_8 (hcls h)).symm, fun h8 => ?_⟩
  refine ite_eq_iff'.mpr ⟨fun h => (decode_class_A (hcls h)).symm, fun hA => ?_⟩
  refine ite_eq_iff'.mpr ⟨fun h => (decode_class_D (hcls h)).symm, fun hD => ?_⟩
  refine ite_eq_iff'.mpr ⟨fun h => (decode_class_E (hcls h)).symm, fun hE => ?_⟩
  refine ite_eq_iff'.mpr ⟨fun h => (decode_class_F (hcls h)).symm, fun hF => ?_⟩
  refine (decode_class_undefined ?_).symm
  simp [opcodeTable, opcodeTableLow, opcodeTableAlu, opcodeTableHigh, ← BitVec.toNat_inj, *]

end Sys2Proof

/-! PROOFS. The statements of 40_control_transfer.md: the two outcomes of `return` and of `call`, the jump,
and the skips on an immediate. -/
namespace Sys2Proof.Machine

/-! ### `return` and `call` as equations (R101, R103) -/

section Stack

variable {s : State}

/-- `return` with `j + 1` return addresses held pops the newest, in slot `j`. -/
theorem exec_ret_pops {j : Nat} (h : j + 1 = s.sp.val) :
    exec .ret s = .next (jumpTo (s.slot j) s.popped) := by
  simp only [exec, execRet, popReturn_eq s j h]

/-- `return` with an empty stack raises `StackUnderflow` (R192). -/
theorem exec_ret_empty (h : s.sp.val = 0) : exec .ret s = .next (raise .stackUnderflow s) := by
  simp only [exec, execRet, (popReturn_none s).mpr h]

/-- `call` with a free slot pushes the address after it. -/
theorem exec_call_pushes (nnn : Addr) (h : s.sp.val < s.cfg.stackDepth) :
    exec (.call nnn) s = .next (jumpTo (zextAddr nnn) (s.pushed (s.pc + 2) h)) := by
  simp only [exec, execCall, pushReturn_eq _ s h]

/-- `call` with a full stack raises `StackOverflow` (R194). -/
theorem exec_call_full (nnn : Addr) (h : s.sp.val = s.cfg.stackDepth) :
    exec (.call nnn) s = .next (raise .stackOverflow s) := by
  simp only [exec, execCall, (pushReturn_none _ s).mpr h]

theorem pushed_slot_same (a : Word) (h : s.sp.val < s.cfg.stackDepth) :
    (s.pushed a h).slot s.sp.val = a := by
  rw [pushed_slot, if_pos rfl]

theorem pushed_slot_other (a : Word) (h : s.sp.val < s.cfg.stackDepth) {k : Nat}
    (hk : k ≠ s.sp.val) : (s.pushed a h).slot k = s.slot k := by
  rw [pushed_slot, if_neg hk]

end Stack

/-- Settles O27: the slot `call` fills, at the old `SP`, is the one the next `return` pops. -/
theorem callThenReturnComesBack : Obligations.CallThenReturnComesBack := by
  intro s nnn hroom
  refine ⟨_, _, exec_call_pushes nnn hroom, exec_ret_pops (j := s.sp.val) rfl, ?_, rfl, ?_⟩
  · exact pushed_slot_same _ hroom
  · exact fun j hj => pushed_slot_other _ hroom (Nat.ne_of_lt hj)

/-- Settles O24: a pop lowers `SP` and keeps every slot; on an empty stack only the latch changes. -/
theorem returnPopsTheStack : Obligations.ReturnPopsTheStack := by
  intro s
  refine ⟨fun j hj => ⟨_, exec_ret_pops hj, rfl, ?_, fun _ => rfl, ?_⟩, fun hempty hs => ?_⟩
  · rw [jumpTo_sp, popped_sp, ← hj, Nat.add_sub_cancel]
  · exact (frame_popped (by simp)).trans (frame_jumpTo _)
  · rw [exec_ret_empty hempty, raise_eq _ s hs]

/-- Settles O25: the 12-bit operand keeps its value when it is widened to `pc` (R73). -/
theorem jumpSetsThePc : Obligations.JumpSetsThePc :=
  fun _ nnn => ⟨_, rfl, zextAddr_toNat nnn, frame_jumpTo _⟩

/-- Settles O26: a push writes the slot at `SP` alone and raises `SP`; on a full stack only the latch
changes. -/
theorem callPushesTheReturnAddress : Obligations.CallPushesTheReturnAddress := by
  intro s nnn
  refine ⟨fun hroom => ⟨_, exec_call_pushes nnn hroom, zextAddr_toNat nnn, rfl, ?_, ?_, ?_⟩,
    fun hfull hs => ?_⟩
  · exact pushed_slot_same _ hroom
  · exact fun k hk => pushed_slot_other _ hroom hk
  · exact (frame_pushed _ hroom (by simp)).trans (frame_jumpTo _)
  · rw [exec_call_full nnn hfull, raise_eq _ s hs]

/-! ### Skips (R104, R105) -/

/-- A skip whose condition decides `p` goes to `pc + 4` if `p` holds, to `pc + 2` if not, and changes
nothing else. -/
theorem skipIf_decides {c : Bool} {p : Prop} (hc : c = true ↔ p) (s : State) :
    s.Frame [] [] (skipIf c s) ∧
      (p → (skipIf c s).pc = s.pc + 4) ∧ (¬ p → (skipIf c s).pc = s.pc + 2) := by
  rw [skipIf_pc, ← hc]
  exact ⟨frame_skipIf c, fun h => if_pos h, fun h => if_neg h⟩

/-- Settles O28: the two skips test `V[X]` for equality with the byte and for its negation. -/
theorem immediateSkips : Obligations.ImmediateSkips := by
  intro s x nn
  refine ⟨⟨_, rfl, skipIf_decides beq_iff_eq s⟩, ⟨_, rfl, ?_⟩⟩
  obtain ⟨hframe, hskip, hstay⟩ := skipIf_decides (p := s.reg x ≠ nn) bne_iff_ne s
  exact ⟨hframe, hskip, fun heq => hstay (not_not_intro heq)⟩

end Sys2Proof.Machine

/-! PROOFS. The statements of 41_alu.md. The ALU instructions end in one of three ways: a register is written
and no flag, a register and then the flag, or the flag and then a register (R110, R121). -/
namespace Sys2Proof.Machine

/-! ### Bytes and flag bits as numbers -/

/-- The byte difference, without a borrow below 0 (R117, R119). -/
theorem byte_sub_toNat (m sub : Byte) : (m - sub).toNat = (m.toNat + 256 - sub.toNat) % 256 := by
  bv_omega

theorem byte_shiftRight_one_toNat (v : Byte) : (v >>> 1).toNat = v.toNat / 2 := by
  rw [BitVec.toNat_ushiftRight, Nat.shiftRight_eq_div_pow, Nat.pow_one]

theorem byte_shiftLeft_one_toNat (v : Byte) : (v <<< 1).toNat = v.toNat * 2 % 256 := by
  rw [BitVec.toNat_shiftLeft, Nat.shiftLeft_eq, Nat.pow_one]

/-- Not-borrow compares the operands unsigned (R117). -/
theorem flagBit_notBorrow (m sub : Byte) :
    flagBit (.notBorrow m sub) = decide (sub.toNat ≤ m.toNat) := rfl

/-- Bit 0 is set in the odd bytes (R118). -/
theorem flagBit_lowBit (v : Byte) : flagBit (.lowBit v) = decide (v.toNat % 2 = 1) := by
  simp [flagBit, BitVec.getLsbD, Nat.testBit_zero]

/-- Bit 7 is set in the bytes from 0x80 on (R120). -/
theorem flagBit_highBit (v : Byte) : flagBit (.highBit v) = decide (0x80 ≤ v.toNat) := by
  have hv : v.toNat < 256 := v.isLt
  simp only [flagBit, BitVec.getLsbD, Nat.testBit_eq_decide_div_mod_eq, decide_eq_decide]
  omega

/-- The flag byte of a bit that decides `p` is 1 if `p` holds, else 0 (R121). -/
theorem flagByte_toNat_of_decides {b : Bool} {p : Prop} [Decidable p] (h : b = decide p) :
    (flagByte b).toNat = if p then 1 else 0 := by
  simp only [h, flagByte_toNat, decide_eq_true_eq]

/-- A flag shifted right is gone (R122). -/
theorem flagByte_shiftRight_one (b : Bool) : flagByte b >>> 1 = 0 := by
  cases b <;> rfl

/-! ### The three ways an ALU instruction ends -/

section Endings

variable {i : Instr} {s : State} {x : Reg}

/-- A register written and no flag (R111 to R115): nothing but that register and `pc` changes. -/
theorem frame_writeReg (b : Byte) : s.Frame [x] [] (advance (s.setReg x b)) :=
  (frame_setReg b List.mem_cons_self).trans frame_advance

/-- The result first, then the flag (R116, R117, R119): the flag is what VF holds in the end, the result is
what X holds unless it is VF. -/
theorem exec_result_then_flag {b : Byte} {f : FlagSource} {n : Nat} {p : Prop} [Decidable p]
    (hexec : exec i s = .next (advance (setFlag f (s.setReg x b))))
    (hresult : b.toNat = n) (hflag : flagBit f = decide p) :
    ∃ t : State, exec i s = .next t ∧ (x ≠ 15 → (t.reg x).toNat = n) ∧
      (t.reg 15).toNat = (if p then 1 else 0) ∧ t.pc = s.pc + 2 ∧ s.Frame [x, 15] [] t := by
  refine ⟨_, hexec, fun hx => ?_, ?_, rfl, ?_⟩
  · rw [reg_advance, reg_setFlag, if_neg hx, reg_setReg_self, hresult]
  · rw [reg_advance, reg_setFlag, if_pos rfl, flagByte_toNat_of_decides hflag]
  · exact ((frame_setReg _ (by simp)).trans (frame_setFlag _ (by simp))).trans frame_advance

/-- The flag first, then `op` on the register as it then is (R118, R120): with X = 15 that is the flag
(R122). -/
theorem exec_flag_then_result {f : FlagSource} (op : Byte → Byte)
    (hexec : exec i s = .next (advance ((setFlag f s).setReg x (op ((setFlag f s).reg x))))) :
    ∃ t : State, exec i s = .next t ∧
      (x ≠ 15 → t.reg x = op (s.reg x) ∧ t.reg 15 = flagByte (flagBit f)) ∧
      (x = 15 → t.reg 15 = op (flagByte (flagBit f))) ∧ t.pc = s.pc + 2 ∧ s.Frame [x, 15] [] t := by
  refine ⟨_, hexec, fun hx => ⟨?_, ?_⟩, ?_, rfl, ?_⟩
  · rw [reg_advance, reg_setReg_self, reg_setFlag, if_neg hx]
  · rw [reg_advance, reg_setReg_other _ _ _ _ hx.symm, reg_setFlag, if_pos rfl]
  · rintro rfl
    rw [reg_advance, reg_setReg_self, reg_setFlag, if_pos rfl]
  · exact ((frame_setFlag _ (by simp)).trans (frame_setReg _ (by simp))).trans frame_advance

end Endings

/-! ### The statements -/

/-- Settles O31: the low byte of the 9-bit sum, then its carry. -/
theorem addSetsTheCarry : Obligations.AddSetsTheCarry :=
  fun _ _ _ => exec_result_then_flag rfl (sum9_low _ _) (flagBit_carry _ _)

/-- Settles O32: the two subtractions are one, with the operands exchanged. -/
theorem subtractSetsNotBorrow : Obligations.SubtractSetsNotBorrow :=
  fun _ _ _ =>
    ⟨exec_result_then_flag rfl (byte_sub_toNat _ _) (flagBit_notBorrow _ _),
      exec_result_then_flag rfl (byte_sub_toNat _ _) (flagBit_notBorrow _ _)⟩

/-- Settles O33: the shifts write the flag first, so with X = 15 it is the flag that is shifted. -/
theorem shiftsByOnePlace : Obligations.ShiftsByOnePlace := by
  intro s x
  constructor
  · obtain ⟨t, hexec, hother, hvf, hrest⟩ :=
      exec_flag_then_result (i := .regShr x) (s := s) (· >>> 1) rfl
    refine ⟨t, hexec, fun hx => ?_, fun hx => ?_, hrest⟩
    · obtain ⟨hresult, hflag⟩ := hother hx
      rw [hresult, hflag, flagByte_toNat_of_decides (flagBit_lowBit _)]
      exact ⟨byte_shiftRight_one_toNat _, by split <;> omega⟩
    · rw [hvf hx, flagByte_shiftRight_one]
  · obtain ⟨t, hexec, hother, hvf, hrest⟩ :=
      exec_flag_then_result (i := .regShl x) (s := s) (· <<< 1) rfl
    refine ⟨t, hexec, fun hx => ?_, fun hx => ?_, hrest⟩
    · obtain ⟨hresult, hflag⟩ := hother hx
      have hlt : (s.reg x).toNat < 256 := (s.reg x).isLt
      rw [hresult, hflag, flagByte_toNat_of_decides (flagBit_highBit _)]
      exact ⟨byte_shiftLeft_one_toNat _, by split <;> omega⟩
    · rw [hvf hx, byte_shiftLeft_one_toNat, flagByte_toNat_of_decides (flagBit_highBit _), hx]
      split <;> rfl

/-- Settles O29: both instructions end in the write of `V[X]`, with no flag. -/
theorem immediateAlu : Obligations.ImmediateAlu := by
  intro s x nn
  refine ⟨⟨_, rfl, reg_setReg_self .., rfl, frame_writeReg _⟩, ⟨_, rfl, ?_, rfl, frame_writeReg _⟩⟩
  rw [reg_advance, reg_setReg_self]
  exact BitVec.toNat_add ..

/-- Settles O30: the three instructions end in the write of `V[X]`, with no flag. -/
theorem registerMovesAndLogic : Obligations.RegisterMovesAndLogic := by
  intro s x y
  refine ⟨⟨_, rfl, reg_setReg_self .., rfl, frame_writeReg _⟩,
    ⟨_, rfl, fun k => ?_, rfl, frame_writeReg _⟩, ⟨_, rfl, fun k => ?_, rfl, frame_writeReg _⟩⟩
  · rw [reg_advance, reg_setReg_self, BitVec.getLsbD_and]
  · rw [reg_advance, reg_setReg_self, BitVec.getLsbD_xor]

/-- Settles O35: the statements for any two registers, at X = Y. -/
theorem sameRegisterTwice : Obligations.SameRegisterTwice := by
  intro s x
  obtain ⟨⟨tAssign, hAssign, hMoved, -⟩, ⟨tAnd, hAnd, hAndBits, -⟩, ⟨tXor, hXor, hXorBits, -⟩⟩ :=
    registerMovesAndLogic s x x
  obtain ⟨⟨tSub, hSub, hDiff, hSubVf, -⟩, ⟨tSubn, hSubn, hDiffn, hSubnVf, -⟩⟩ :=
    subtractSetsNotBorrow s x x
  obtain ⟨tAdd, hAdd, hSum, hAddVf, -⟩ := addSetsTheCarry s x x
  have hzero : ((s.reg x).toNat + 256 - (s.reg x).toNat) % 256 = 0 := by omega
  rw [if_pos le_rfl] at hSubVf hSubnVf
  refine ⟨⟨tAssign, hAssign, hMoved⟩, ⟨tAnd, hAnd, ?_⟩, ⟨tXor, hXor, ?_⟩, ⟨tSub, hSub, ?_, ?_⟩,
    ⟨tSubn, hSubn, ?_, ?_⟩, ⟨tAdd, hAdd, ?_, ?_⟩⟩
  · exact BitVec.eq_of_getLsbD_eq fun k _ => (hAndBits k).trans (Bool.and_self _)
  · refine BitVec.eq_of_getLsbD_eq fun k _ => ?_
    rw [hXorBits k, Bool.xor_self]
    exact BitVec.getLsbD_zero.symm
  · exact fun hx => BitVec.eq_of_toNat_eq ((hDiff hx).trans hzero)
  · exact BitVec.eq_of_toNat_eq hSubVf
  · exact fun hx => BitVec.eq_of_toNat_eq ((hDiffn hx).trans hzero)
  · exact BitVec.eq_of_toNat_eq hSubnVf
  · exact fun hx => (hSum hx).trans (by rw [two_mul])
  · rw [← BitVec.toNat_inj, hAddVf, show (1 : Byte).toNat = 1 from rfl]
    split <;> omega

end Sys2Proof.Machine

/-! PROOFS. The statements of 42_index_memory.md: the three writes of `I`, the stores of digits and of a block
of registers, the load of a block, and the round trip. The frame of each is that of a completed instruction
(R39). -/
namespace Sys2Proof.Machine

/-! ### Writes of `I` (R130 to R132) -/

/-- An instruction that ends in a write of `I`: nothing but `I` and `pc` changes, VF included. -/
theorem exec_writes_index {i : Instr} {s : State} {a : Word} {n : Nat}
    (hexec : exec i s = .next (advance (s.withI a))) (hvalue : a.toNat = n) :
    ∃ t : State, exec i s = .next t ∧ t.i.toNat = n ∧ t.pc = s.pc + 2 ∧ s.Frame [] [.index] t :=
  ⟨_, hexec, hvalue, rfl, (frame_withI a List.mem_cons_self).trans frame_advance⟩

/-- The glyph address never wraps: five times a byte fits 16 bits (R132). -/
theorem glyphAddress_toNat (x : Reg) (s : State) :
    (zextReg x s * 5).toNat = (s.reg x).toNat * 5 := by
  have hbyte : (s.reg x).toNat < 256 := (s.reg x).isLt
  rw [BitVec.toNat_mul, zextReg_toNat, show (5 : Word).toNat = 5 from rfl]
  omega

theorem index_add_zextReg_toNat (x : Reg) (s : State) :
    (s.i + zextReg x s).toNat = (s.i.toNat + (s.reg x).toNat) % 65536 := by
  rw [BitVec.toNat_add, zextReg_toNat]

/-! ### Blocks and digits inside memory (R54, R133 to R135) -/

section Block

variable {s : State} {x : Reg}

/-- A block whose last address is at most `0xFFF` passes the check (R54). -/
theorem checkSpan_block (h : s.i.toNat + x.toNat ≤ 0xFFF) :
    checkSpan s.i.toNat (blockLength x) = none :=
  (checkSpan_eq_none ..).mpr (.inr (by simp only [blockLength]; omega))

/-- After a block inside memory `I` is the address behind it, without a wrap (R134, R135). -/
theorem advanceIndex_toNat (h : s.i.toNat + x.toNat ≤ 0xFFF) :
    (advanceIndex x s).i.toNat = s.i.toNat + x.toNat + 1 := by
  rw [advanceIndex_i, BitVec.toNat_add, BitVec.toNat_ofNat, blockLength]
  omega

/-- `load-block` whose block lies inside memory loads it and moves `I` and `pc` (R135). -/
theorem exec_loadBlock (h : s.i.toNat + x.toNat ≤ 0xFFF) :
    exec (.loadBlock x) s =
      .next (advance (advanceIndex x
        (s.withV (loadRegs s.v 0 (s.bytes s.i.toNat (blockLength x)))))) := by
  simp only [exec, execLoadBlock, checkSpan_block h]

/-- Three digits whose last address is at most `0xFFF` pass the check (R54). -/
theorem checkSpan_digits (h : s.i.toNat + 2 ≤ 0xFFF) : checkSpan s.i.toNat 3 = none :=
  (checkSpan_eq_none ..).mpr (.inr (by omega))

/-- `store-bcd` whose three addresses lie inside memory stores the digits and moves `pc` (R133). -/
theorem exec_storeBcd (h : s.i.toNat + 2 ≤ 0xFFF) :
    exec (.storeBcd x) s = .next (advance (s.store s.i.toNat (bcdDigits (s.reg x)))) := by
  simp only [exec, execStoreBcd, checkSpan_digits h]

end Block

/-- A block loaded from `base` puts the byte at `base + r` in register `r`, for `r` up to X, and leaves the
registers above X (R135). -/
theorem reg_load_block (s : State) (base : Nat) (x r : Reg) :
    (s.withV (loadRegs s.v 0 (s.bytes base (blockLength x)))).reg r =
      if r.toNat ≤ x.toNat then s.byte (base + r.toNat) else s.reg r := by
  rw [reg_withV, loadRegs_getElem, if_pos (Nat.zero_le _), Nat.sub_zero, getElem?_bytes, blockLength]
  simp only [Nat.lt_succ_iff]
  split <;> rfl

/-- Digit `k` of a byte is stored at `base + k` (R133). -/
theorem byte_store_bcdDigits {k n : Nat} (s : State) (base : Nat) (v : Byte)
    (h : [v.toNat / 100, v.toNat / 10 % 10, v.toNat % 10][k]? = some n) :
    ((s.store base (bcdDigits v)).byte (base + k)).toNat = n := by
  rw [← bcdDigits_toNat, List.getElem?_map, Option.map_eq_some_iff] at h
  obtain ⟨b, hb, rfl⟩ := h
  rw [byte_store_inside _ s base k b hb]

/-! ### The statements -/

/-- Settles O36: both instructions end in a write of `I`. -/
theorem setIndexAndGlyphAddress : Obligations.SetIndexAndGlyphAddress :=
  fun s nnn x =>
    ⟨exec_writes_index rfl (zextAddr_toNat nnn), exec_writes_index rfl (glyphAddress_toNat x s)⟩

/-- Settles O37: the 16-bit sum wraps, and nothing but `I` is written. -/
theorem addIndexWraps : Obligations.AddIndexWraps :=
  fun s x => exec_writes_index rfl (index_add_zextReg_toNat x s)

/-- Settles O38: the three digits are the bytes stored. -/
theorem storeBcdWritesTheDigits : Obligations.StoreBcdWritesTheDigits := by
  intro s x hfits
  refine ⟨_, exec_storeBcd hfits, ?_, ?_, ?_, fun a ha => ?_, rfl,
    completed_frame (i := .storeBcd x) ⟨checkSpan_digits hfits, rfl⟩⟩
  · exact byte_store_bcdDigits (k := 0) s _ _ rfl
  · exact byte_store_bcdDigits (k := 1) s _ _ rfl
  · exact byte_store_bcdDigits (k := 2) s _ _ rfl
  · refine byte_store_outside _ s _ a fun ⟨hlo, hhi⟩ => ha ⟨hlo, ?_⟩
    exact Nat.le_of_lt_succ hhi

/-- Settles O39: the bytes stored are the registers 0 to X in order. -/
theorem storeBlockWritesTheRegisters : Obligations.StoreBlockWritesTheRegisters := by
  intro s x hfits
  refine ⟨_, exec_storeBlock hfits, fun r hr => ?_, fun a ha => ?_, ?_, rfl,
    completed_frame (i := .storeBlock x) ⟨checkSpan_block hfits, rfl⟩⟩
  · exact byte_store_blockRegs s hr
  · refine byte_store_outside _ s _ a fun ⟨hlo, hhi⟩ => ha ⟨hlo, ?_⟩
    rw [length_blockRegs] at hhi
    exact Nat.le_of_lt_succ hhi
  · exact advanceIndex_toNat (s := s.store _ _) hfits

/-- Settles O40: register `r` is loaded from `I + r` if it is one of the block, and kept if not. -/
theorem loadBlockReadsTheRegisters : Obligations.LoadBlockReadsTheRegisters := by
  intro s x hfits
  refine ⟨_, exec_loadBlock hfits, fun r hr => ?_, fun r hr => ?_, ?_, rfl,
    completed_frame (i := .loadBlock x) ⟨checkSpan_block hfits, rfl⟩⟩
  · exact (reg_load_block s _ x r).trans (if_pos hr)
  · exact (reg_load_block s _ x r).trans (if_neg (Nat.not_le.mpr hr))
  · exact advanceIndex_toNat (s := s.withV _) hfits

/-- Settles O42: register `r` is loaded from the address, `I + r`, it was stored at. -/
theorem storeThenLoadRoundTrips : Obligations.StoreThenLoadRoundTrips := by
  intro s t u x hfits hstore hbytes hi
  obtain ⟨t', hstore', hstored, -, hti, -⟩ := storeBlockWritesTheRegisters s x hfits
  cases hstore.symm.trans hstore'
  rw [← hi] at hfits hstored hti
  obtain ⟨z, hload, hloaded, -, hzi, -⟩ := loadBlockReadsTheRegisters u x hfits
  refine ⟨z, hload, fun r hr => ?_, BitVec.eq_of_toNat_eq (hzi.trans hti.symm)⟩
  calc z.reg r = u.byte (u.i.toNat + r.toNat) := hloaded r hr
    _ = t.byte (u.i.toNat + r.toNat) := hbytes _
    _ = s.reg r := hstored r hr

end Sys2Proof.Machine

/-! PROOFS. The statements of 43_display.md. A blit changes each pixel by a bit that its row bytes and its
corner alone choose; `draw` is the blit of the sprite rows, and the rest of it is the frame (R39). -/
namespace Sys2Proof.Machine

/-! ### The blit as a whole (R144, R145) -/

section Blit

variable {w h x0 y0 : Nat} {rows : List Byte}

/-- Row byte `r`, column `c`, lands on its wrapped pixel by XOR. -/
theorem pixel_blit_hit (g : Grid w h) (hw : 8 ≤ w) (hh : rows.length ≤ h) {r c : Nat} {b : Byte}
    (hb : rows[r]? = some b) (hc : c < 8) :
    (blit x0 y0 rows g).1.pixel ((x0 + c) % w) ((y0 + r) % h) =
      (g.pixel ((x0 + c) % w) ((y0 + r) % h) ^^ b.getLsbD (7 - c)) := by
  simpa only [blit, spriteBit, Nat.zero_add] using
    pixel_blitRows_hit x0 y0 0 r c b rows g false hw hh hb hc

theorem pixel_blit_other (g : Grid w h) (hw : 8 ≤ w) (hh : 0 < h) {px py : Nat}
    (hp : ∀ r c : Nat, r < rows.length → c < 8 → ¬ (px = (x0 + c) % w ∧ py = (y0 + r) % h)) :
    (blit x0 y0 rows g).1.pixel px py = g.pixel px py :=
  pixel_blitRows_other x0 y0 0 px py rows g false hw hh (by simpa only [Nat.zero_add] using hp)

theorem blit_collision (g : Grid w h) (hw : 8 ≤ w) (hh : rows.length ≤ h) :
    (blit x0 y0 rows g).2 = true ↔
      ∃ (r c : Nat) (b : Byte), rows[r]? = some b ∧ c < 8 ∧ b.getLsbD (7 - c) = true ∧
        g.pixel ((x0 + c) % w) ((y0 + r) % h) = true := by
  simpa only [blit, spriteBit, Nat.zero_add, Bool.false_eq_true, false_or] using
    blitRows_collision x0 y0 0 rows g false hw hh

/-- The bit XORed onto a pixel is the same for every grid, and it is 0 if all row bytes are. -/
theorem pixel_blit_xor (px py : Nat) (hw : 8 ≤ w) (hpos : 0 < h) (hh : rows.length ≤ h) :
    ∃ bit : Bool, (∀ g : Grid w h, (blit x0 y0 rows g).1.pixel px py = (g.pixel px py ^^ bit)) ∧
      (bit = true → ∃ b ∈ rows, b ≠ 0) := by
  by_cases hit : ∃ r c, r < rows.length ∧ c < 8 ∧ px = (x0 + c) % w ∧ py = (y0 + r) % h
  · obtain ⟨r, c, hr, hc, rfl, rfl⟩ := hit
    refine ⟨rows[r].getLsbD (7 - c),
      fun g => pixel_blit_hit g hw hh (List.getElem?_eq_getElem hr) hc,
      fun hbit => ⟨rows[r], List.getElem_mem hr, fun hzero => ?_⟩⟩
    simp [hzero] at hbit
  · refine ⟨false, fun g => ?_, nofun⟩
    rw [Bool.xor_false]
    exact pixel_blit_other g hw hpos fun r c hr hc hp => hit ⟨r, c, hr, hc, hp⟩

/-- A byte other than 0 has a sprite bit 1. -/
theorem exists_spriteBit {b : Byte} (hb : b ≠ 0) : ∃ c < 8, b.getLsbD (7 - c) = true := by
  by_contra! hnone
  refine hb (BitVec.eq_of_getLsbD_eq fun i hi => ?_)
  have hbit := hnone (7 - i) (by omega)
  rw [show 7 - (7 - i) = i by omega] at hbit
  simpa using hbit

/-- A pixel that a bit 1 of the first blit lit makes the second collide. -/
theorem blit_blit_collision (g : Grid w h) (hw : 8 ≤ w) (hh : rows.length ≤ h) {r c : Nat} {b : Byte}
    (hb : rows[r]? = some b) (hc : c < 8) (hbit : b.getLsbD (7 - c) = true)
    (hunset : g.pixel ((x0 + c) % w) ((y0 + r) % h) = false) :
    (blit x0 y0 rows (blit x0 y0 rows g).1).2 = true := by
  refine (blit_collision _ hw hh).mpr ⟨r, c, b, hb, hc, hbit, ?_⟩
  rw [pixel_blit_hit g hw hh hb hc, hunset, hbit]
  rfl

theorem blit_blit_grid (g : Grid w h) (hw : 8 ≤ w) (hpos : 0 < h) (hh : rows.length ≤ h) :
    (blit x0 y0 rows (blit x0 y0 rows g).1).1 = g := by
  refine grid_ext fun px py => ?_
  obtain ⟨bit, hxor, -⟩ := pixel_blit_xor (x0 := x0) (y0 := y0) px py hw hpos hh
  rw [hxor, hxor, Bool.xor_assoc, Bool.xor_self, Bool.xor_false]

theorem blit_zero_rows (g : Grid w h) (hw : 8 ≤ w) (hpos : 0 < h) (hh : rows.length ≤ h)
    (hzero : ∀ b ∈ rows, b = 0) : blit x0 y0 rows g = (g, false) := by
  refine Prod.ext (grid_ext fun px py => ?_) (Bool.eq_false_iff.mpr fun hcoll => ?_)
  · obtain ⟨bit, hxor, hbit⟩ := pixel_blit_xor (x0 := x0) (y0 := y0) px py hw hpos hh
    cases bit with
    | false => rw [hxor, Bool.xor_false]
    | true =>
      obtain ⟨b, hmem, hne⟩ := hbit rfl
      exact absurd (hzero b hmem) hne
  · obtain ⟨r, c, b, hb, -, hbit, -⟩ := (blit_collision g hw hh).mp hcoll
    simp [hzero b (List.mem_of_getElem? hb)] at hbit

end Blit

/-! ### `draw` as an equation (R143) -/

/-- `draw` whose check passes blits the sprite rows, then writes the flag (R143). -/
theorem exec_draw {s : State} {n : Nibble} (x y : Reg) (h : checkSpan s.i.toNat n.toNat = none) :
    exec (.draw x y n) s = .next (advance (emitPresent
      (setFlag (.collision (blit (s.reg x).toNat (s.reg y).toNat (spriteRows n s) s.display).2)
        (s.withDisplay (blit (s.reg x).toNat (s.reg y).toNat (spriteRows n s) s.display).1)))) := by
  simp only [exec, execDraw, h]

/-- A part that reads the same need not be named in the frame. -/
theorem State.Frame.drop_part {regs : List Reg} {p : Part} {parts : List Part} {s t : State}
    (hframe : s.Frame regs (p :: parts) t) (hsame : s.SamePart t p) : s.Frame regs parts t := by
  obtain ⟨hregs, hparts, hrest⟩ := hframe
  refine ⟨hregs, fun q hq => ?_, hrest⟩
  by_cases hqp : q = p
  · exact hqp ▸ hsame
  · exact hparts q fun hmem => (List.mem_cons.mp hmem).elim hqp hq

/-! ### The statements -/

/-- Settles O44: each sprite row and column has a pixel of its own, as the grid is large enough. -/
theorem blitIsTheXorOfTheWrappedSprite : Obligations.BlitIsTheXorOfTheWrappedSprite := by
  intro w h x0 y0 rows g hw hh hlen
  have hfit : rows.length ≤ h := hlen.trans hh
  exact ⟨fun _ _ _ hb hc => pixel_blit_hit g hw hfit hb hc,
    fun _ _ hp => pixel_blit_other g hw (by omega) hp, blit_collision g hw hfit⟩

/-- Settles O45: the same bit is XORed onto each pixel twice, and what the first blit lit the second turns
off. -/
theorem blitTwiceRestores : Obligations.BlitTwiceRestores := by
  intro w h x0 y0 rows g hw hh hlen
  have hpos : 0 < h := by omega
  have hfit : rows.length ≤ h := hlen.trans hh
  refine ⟨blit_blit_grid g hw hpos hfit, fun hunset hdraws => ⟨?_, ?_⟩, blit_zero_rows g hw hpos hfit⟩
  · refine Bool.eq_false_iff.mpr fun hcoll => ?_
    obtain ⟨r, c, b, hb, hc, hbit, hset⟩ := (blit_collision g hw hfit).mp hcoll
    exact absurd (hunset r c b hb hc hbit) (by simp [hset])
  · obtain ⟨b, hmem, hne⟩ := hdraws
    obtain ⟨r, hb⟩ := List.mem_iff_getElem?.mp hmem
    obtain ⟨c, hc, hbit⟩ := exists_spriteBit hne
    exact blit_blit_collision g hw hfit hb hc hbit (hunset r c b hb hc hbit)

/-- Settles O43: the display is a cleared grid, and the frame is that of the instruction (R39). -/
theorem clearScreenClears : Obligations.ClearScreenClears :=
  fun s => ⟨_, rfl, pixel_clear s.cfg.displayW s.cfg.displayH, rfl, rfl,
    completed_frame (i := .clearScreen) rfl⟩

/-- Settles O46: the rows are the bytes at `I`, and the flag is written last. -/
theorem drawBlitsTheSprite : Obligations.DrawBlitsTheSprite := by
  intro s x y n hfits
  have hspan : checkSpan s.i.toNat n.toNat = none :=
    (checkSpan_eq_none ..).mpr (hfits.imp_left (congrArg BitVec.toNat))
  refine ⟨_, spriteRows n s, exec_draw x y hspan, length_spriteRows n s,
    getElem?_spriteRows n s, fun _ _ => rfl, ?_, rfl, rfl,
    completed_frame (i := .draw x y n) ⟨hspan, _, rfl, rfl⟩⟩
  rw [reg_advance, reg_emitPresent, reg_setFlag, if_pos rfl, flagByte_toNat, flagBit]

/-- Settles O47: the blit of no rows is the display itself, without a collision. -/
theorem drawOfNoRows : Obligations.DrawOfNoRows := by
  intro s x y
  obtain ⟨t, rows, hexec, hlen, -, hpixel, hflag, hpresent, hpc, hframe⟩ :=
    drawBlitsTheSprite s x y 0 (.inl rfl)
  obtain rfl := List.eq_nil_of_length_eq_zero hlen
  exact ⟨t, hexec, hpixel, BitVec.eq_of_toNat_eq hflag, hpresent, hpc, hframe.drop_part hpixel⟩

end Sys2Proof.Machine

/-! PROOFS. The statements of 44_keyboard.md. A key skip is `skipIf` on one key bit, `wait-key` with a key
pressed is one register write, and with none its step is the fetch phase alone. -/
namespace Sys2Proof.Machine

/-! ### Key skips (R151, R152) -/

section Skips

variable {s : State} {x : Reg}

/-- An index up to 15 names a key (R151). -/
theorem keyIndex_of_le (h : (s.reg x).toNat ≤ 15) : keyIndex x s = .ok (s.reg x).toNat := if_pos h

theorem exec_skipKeyEq (h : (s.reg x).toNat ≤ 15) :
    exec (.skipKeyEq x) s = .next (skipIf (keyPressed s.keys (s.reg x).toNat) s) := by
  simp only [exec, execSkipKeyEq, keyIndex_of_le h]

theorem exec_skipKeyNeq (h : (s.reg x).toNat ≤ 15) :
    exec (.skipKeyNeq x) s = .next (skipIf (!keyPressed s.keys (s.reg x).toNat) s) := by
  simp only [exec, execSkipKeyNeq, keyIndex_of_le h]

end Skips

/-! ### `wait-key` (R153, R154) -/

/-- `wait-key` with no key pressed is suspended (R153). -/
theorem exec_waitKey_of_no_key {s : State} (x : Reg) (h : s.keys = 0) :
    exec (.waitKey x) s = .next s := if_pos h

/-- `wait-key` with a key pressed writes the reported key and moves `pc` (R153). -/
theorem exec_waitKey_of_key {s : State} (x : Reg) (h : s.keys ≠ 0) :
    exec (.waitKey x) s = .next (advance (s.setReg x (BitVec.ofNat 8 (keySelect s.keys)))) := if_neg h

/-- A reported key fits the register it is written to (R154). -/
theorem keySelect_byte_toNat {keys : BitVec 16} (h : keys ≠ 0) :
    (BitVec.ofNat 8 (keySelect keys)).toNat = keySelect keys := by
  obtain ⟨hlt, -⟩ := keySelect_pressed keys h
  exact Nat.mod_eq_of_lt (by omega)

/-- The commit phase keeps what a suspended `wait-key` left: it raises no `NoProgress` (R195). -/
theorem commit_of_suspended {i : Instr} {before : State} (after : State)
    (h : suspended i before = true) : commit i before after = after := by
  simp [commit, h]

/-- The step of a suspended `wait-key` does nothing but set `PPC` (R153, R171). -/
theorem step_of_suspended_waitKey {s : State} {w : Word} {x : Reg} (hs : s.fault = none)
    (hk : s.keys = 0) (hf : fetch s = .ok w) (hd : decode w = .instr (.waitKey x)) :
    step s = .next (beginStep s) := by
  rw [step_of_decode hs hf hd (exec_waitKey_of_no_key (s := beginStep s) x hk),
    commit_of_suspended _ ((suspended_iff _ (beginStep s)).mpr ⟨x, rfl, hk⟩)]

/-! ### The statements -/

/-- Settles O48: both skips end in `skipIf` on bit `V[X]` of `K`, negated in one of them. -/
theorem keySkips : Obligations.KeySkips := by
  intro s x h
  have heq := skipIf_decides (p := keyPressed s.keys (s.reg x).toNat = true) Iff.rfl s
  have hneq := skipIf_decides (p := keyPressed s.keys (s.reg x).toNat = false)
    (by rw [Bool.not_eq_true']) s
  rw [Bool.not_eq_true] at heq
  rw [Bool.not_eq_false] at hneq
  exact ⟨⟨_, exec_skipKeyEq h, heq⟩, ⟨_, exec_skipKeyNeq h, hneq⟩⟩

/-- Settles O50: every choice function reports a pressed key, and its code fits the register. -/
theorem waitKeyReportsAPressedKey : Obligations.WaitKeyReportsAPressedKey := by
  intro s x h
  obtain ⟨hlt, hpressed⟩ := keySelect_pressed s.keys h
  have hreg : ((advance (s.setReg x (BitVec.ofNat 8 (keySelect s.keys)))).reg x).toNat =
      keySelect s.keys := by
    rw [reg_advance, reg_setReg_self, keySelect_byte_toNat h]
  refine ⟨_, exec_waitKey_of_key x h, ?_, ?_, rfl, frame_writeReg _⟩
  · rw [hreg]
    exact Nat.le_of_lt_succ hlt
  · rwa [hreg]

/-- Settles O51: the reported key is pressed, so it is the only one that is. -/
theorem waitKeyReportsTheOnlyKey : Obligations.WaitKeyReportsTheOnlyKey := by
  intro s x k _ honly
  have hkeys : s.keys ≠ 0 := by
    intro hzero
    simpa [hzero] using honly k
  obtain ⟨t, hexec, -, hpressed, -⟩ := waitKeyReportsAPressedKey s x hkeys
  exact ⟨t, hexec, of_decide_eq_true ((honly _).symm.trans hpressed)⟩

/-- Settles O52, by induction on the number of steps: the state after one is again at the same suspended
`wait-key`. -/
theorem waitKeySuspends : Obligations.WaitKeySuspends := by
  intro s w x n hs hk hf hd
  refine ⟨exec_waitKey_of_no_key x hk, ?_⟩
  induction n generalizing s with
  | zero => exact runOps_cons .step [] (step_of_suspended_waitKey hs hk hf hd)
  | succ n ih =>
    exact (runOps_cons .step _ (step_of_suspended_waitKey hs hk hf hd)).trans
      (ih (beginStep s) hs hk hf)

end Sys2Proof.Machine

/-! PROOFS. The statements of 45_timers.md. Each timer instruction writes one register or one timer and moves
`pc`; the rest is the frame of its row (R39). -/
namespace Sys2Proof.Machine

/-- `sound_active` is exactly that the sound timer is not 0 (R163, decision D20). -/
theorem soundActive_iff (s : State) : s.soundActive = true ↔ s.st.toNat ≠ 0 := by
  rw [State.soundActive, bne_iff_ne, Ne, ← BitVec.toNat_inj]
  rfl

/-- Settles O54: the value is the one written, `sound_active` is read off the new `ST`, and the frames are
those of the completed instructions. -/
theorem timerInstructions : Obligations.TimerInstructions := by
  intro s x
  refine ⟨⟨_, rfl, ?_, rfl, frame_writeReg _⟩,
    ⟨_, rfl, ?_, rfl, completed_frame (i := .setTimer x) rfl⟩,
    ⟨_, rfl, ?_, rfl, ?_, completed_frame (i := .setSoundTimer x) rfl⟩⟩
  · rw [reg_advance, reg_setReg_self]
  · rw [advance_dt, withDt_dt]
  · rw [advance_st, withSt_st]
  · rw [soundActive_iff, advance_st, withSt_st]

end Sys2Proof.Machine

/-! PROOFS. The statements of 46_host_operations.md. Each operation's own rule is said once; what a sequence
of operations keeps is then one induction over the sequence. -/
namespace Sys2Proof.Machine

/-! ### Step (R171) -/

/-- A step always leaves a state (R171, decision D13). -/
theorem step_next (s : State) : ∃ t, step s = .next t := by
  by_cases hs : s.fault = none
  · cases hf : fetch s with
    | error f => exact ⟨_, step_of_fetch_fault hs hf⟩
    | ok w =>
      cases hd : decode w with
      | decodeFault bad => exact ⟨_, step_of_illegal hs hf hd⟩
      | instr i =>
        obtain ⟨u, hu⟩ := exec_next i (beginStep s)
        exact ⟨_, step_of_decode hs hf hd hu⟩
  · exact ⟨s, step_halted s hs⟩

/-- A step never writes the configuration (R38). -/
theorem step_cfg {s t : State} (h : step s = .next t) : t.cfg = s.cfg := by
  by_cases hs : s.fault = none
  · obtain ⟨c, rfl, -⟩ | ⟨_, _, -, -, -, hcomp, -⟩ := step_raises_or_completes hs h
    · exact raise_cfg c (beginStep s)
    · exact completed_cfg (s := beginStep s) hcomp
  · cases (step_halted s hs).symm.trans h
    rfl

/-- Every instruction but a `wait-key` with no key pressed is checked for progress (R195). -/
theorem suspended_eq_false_iff (i : Instr) (s : State) :
    suspended i s = false ↔ ¬ ∃ x, i = .waitKey x ∧ s.keys = 0 := by
  rw [Bool.eq_false_iff, Ne, suspended_iff]

/-! ### SetKey (R175) -/

/-- Setting a key to the level it already has leaves `K` as it was (R175). -/
theorem setKeyBit_of_same {keys : BitVec 16} {code : Nibble} {pressed : Bool}
    (h : keys.getLsbD code.toNat = pressed) : setKeyBit keys code pressed = keys := by
  refine BitVec.eq_of_getLsbD_eq fun j _ => ?_
  rw [getLsbD_setKeyBit]
  split
  · next hj => rw [hj, h]
  · rfl

/-! ### Load (R177) -/

/-- The image that fits is stored at `ORIGIN` (R177). -/
theorem loadImage_of_fits {image : List Byte} {s : State}
    (h : image.length ≤ Config.memSize - s.cfg.origin) :
    loadImage image s = .next (s.store s.cfg.origin image) :=
  if_pos (decide_eq_true h)

/-- The image that does not fit is refused by name (U5). -/
theorem loadImage_of_too_long {image : List Byte} {s : State}
    (h : Config.memSize - s.cfg.origin < image.length) :
    loadImage image s = .refused (.imageTooLong image.length) :=
  if_neg fun hfit => absurd (of_decide_eq_true hfit) (Nat.not_le.mpr h)

/-- `Load` keeps the invariant: with `ORIGIN` below `0x1000` a fitting image lies inside memory, and only
memory is written (R6, R177). -/
theorem inv_store_image {image : List Byte} {s : State} (hinv : s.Inv)
    (hfit : image.length ≤ Config.memSize - s.cfg.origin) :
    (s.store s.cfg.origin image).Inv := by
  obtain ⟨hcfg, hmem, hpc, hst, hlatch⟩ := hinv
  obtain ⟨horigin, -⟩ := wellFormed_bounds hcfg
  have hend : s.cfg.origin + image.length ≤ Config.memSize := by
    rw [Config.memSize] at hfit ⊢
    omega
  exact ⟨hcfg, wf_store hend hmem, hpc, hst, hlatch⟩

/-! ### Sequences of operations (R178) -/

/-- What every operation keeps, and goes through with, every sequence of operations does. -/
theorem runOps_keeps {P : State → Prop}
    (hop : ∀ op s, P s → ∃ t, applyOp op s = .next t ∧ P t) (ops : List HostOp) {s : State}
    (hs : P s) : ∃ t, runOps ops s = .next t ∧ P t := by
  induction ops generalizing s with
  | nil => exact ⟨s, rfl, hs⟩
  | cons op ops ih =>
    obtain ⟨u, hu, hPu⟩ := hop op s hs
    rw [runOps_cons op ops hu]
    exact ih hPu

/-- Every operation goes through and keeps the invariant and the configuration: `Tick` writes the timers
and `SetKey` writes `K`, which the invariant does not read (R37, R174, R175). -/
theorem applyOp_keeps_inv (op : HostOp) {s : State} (hinv : s.Inv) :
    ∃ t, applyOp op s = .next t ∧ t.Inv ∧ t.cfg = s.cfg := by
  cases op with
  | step =>
    obtain ⟨t, ht⟩ := step_next s
    exact ⟨t, ht, stepKeepsTheInvariant s t hinv ht, step_cfg ht⟩
  | tick => exact ⟨tick s, rfl, hinv, rfl⟩
  | setKey code pressed => exact ⟨setKey code pressed s, rfl, hinv, rfl⟩

/-- So does every sequence of operations. -/
theorem runOps_keeps_inv (ops : List HostOp) {s : State} (hinv : s.Inv) :
    ∃ t, runOps ops s = .next t ∧ t.Inv ∧ t.cfg = s.cfg := by
  refine runOps_keeps (P := fun u => u.Inv ∧ u.cfg = s.cfg) (fun op u ⟨hu, hcfg⟩ => ?_) ops
    ⟨hinv, rfl⟩
  obtain ⟨t, ht, hinv', hcfg'⟩ := applyOp_keeps_inv op hu
  exact ⟨t, ht, hinv', hcfg'.trans hcfg⟩

/-- `t` is `s` but for the keys and the timers, which the host moves whether or not `FAULT` is set (D13). -/
def State.SameButKeysAndTimers (s t : State) : Prop :=
  t = { s with keys := t.keys, dt := t.dt, st := t.st }

theorem State.SameButKeysAndTimers.fault_eq {s t : State} (h : s.SameButKeysAndTimers t) :
    t.fault = s.fault :=
  (congrArg State.fault h :)

/-- From a halted core every operation leaves the record and all but the keys and timers (R197). -/
theorem applyOp_halted (op : HostOp) {s u : State} (hs : s.fault ≠ none)
    (hu : s.SameButKeysAndTimers u) :
    ∃ t, applyOp op u = .next t ∧ s.SameButKeysAndTimers t := by
  cases op with
  | step => exact ⟨u, step_halted u (hu.fault_eq ▸ hs), hu⟩
  | tick =>
    refine ⟨tick u, rfl, ?_⟩
    rw [hu]
    rfl
  | setKey code pressed =>
    refine ⟨setKey code pressed u, rfl, ?_⟩
    rw [hu]
    rfl

/-! ### The statements -/

/-- Settles O18: each operation keeps the invariant, so every sequence does, and `Reset` and `Load` start
it in a state that meets it. -/
theorem everyOperationAndRunKeepsTheInvariant :
    Obligations.EveryOperationAndRunKeepsTheInvariant := by
  refine ⟨fun op s hinv => applyOp_keeps_inv op hinv,
    fun image s hinv hfit => ⟨_, loadImage_of_fits hfit, inv_store_image hinv hfit, rfl⟩,
    fun p image ops hp hfit => ?_⟩
  obtain ⟨hreset, -⟩ := resetMeetsTheInvariant
  have hload : launch p image = .next ((State.resetOf p).store p.origin image) :=
    loadImage_of_fits (s := State.resetOf p) hfit
  have hinv : ((State.resetOf p).store p.origin image).Inv :=
    inv_store_image (hreset p hp) hfit
  simp only [runImage, hload]
  exact runOps_keeps_inv ops hinv

/-- Settles O10: a halted step is the identity, and every operation keeps all but the keys and timers. -/
theorem haltedCoreKeepsItsRecord : Obligations.HaltedCoreKeepsItsRecord :=
  ⟨step_halted, fun ops _ hs => runOps_keeps (fun op _ => applyOp_halted op hs) ops rfl⟩

/-- Settles O20: the image is one run of bytes stored at `ORIGIN`. -/
theorem loadPlacesTheImage : Obligations.LoadPlacesTheImage := by
  refine fun image s => ⟨fun hfit => ⟨_, loadImage_of_fits hfit, ?_, ?_, rfl⟩, loadImage_of_too_long⟩
  · exact byte_store_inside image s s.cfg.origin
  · exact byte_store_outside image s s.cfg.origin

/-- Settles O7: the commit phase raises `NoProgress` on exactly the condition of the statement. -/
theorem stepRunsTheDecodedInstruction : Obligations.StepRunsTheDecodedInstruction := by
  intro s i hs hpc hd
  obtain ⟨t, ht⟩ := exec_next i (beginStep s)
  refine ⟨t, ht, ?_⟩
  rw [step_of_decode hs (fetch_ok s hpc) hd ht]
  obtain ⟨hf, hsus, hmoved, hraise⟩ | ⟨hkeep, hmove⟩ := commit_cases i (beginStep s) t
  · rw [hraise, raise_eq _ (beginStep s) hs, if_pos]
    · rfl
    · exact ⟨hf, hmoved, (suspended_eq_false_iff i (beginStep s)).mp hsus⟩
  · rw [hkeep, if_neg]
    rintro ⟨hf, hmoved, hsus⟩
    exact hmove hf ((suspended_eq_false_iff i (beginStep s)).mpr hsus) hmoved

/-- Settles O8: each way the fetch and the decoder can go has its step. -/
theorem everyStepAnswersNext : Obligations.EveryStepAnswersNext := step_next

/-- Settles O56: `SetKey` writes one bit of `K`, and writing the bit it already is leaves `K`. -/
theorem setKeySetsOneKey : Obligations.SetKeySetsOneKey := by
  refine fun s code pressed => ⟨?_, fun j hj => ?_, rfl, fun h => ?_⟩
  · rw [setKey_keys, getLsbD_setKeyBit, if_pos rfl]
  · rw [setKey_keys, getLsbD_setKeyBit, if_neg hj]
  · rw [setKey, setKeyBit_of_same h]

end Sys2Proof.Machine

/-! PROOFS. The statements of 60_exceptions.md. A completed instruction leaves `pc` where it was exactly when
it is a jump, call or return to its own address, or a suspended `wait-key`; and whatever phase raises a fault,
the step leaves the state before it with `PPC` and the record. -/
namespace Sys2Proof.Machine

/-! ### What a fault leaves (R196, R198) -/

/-- A fault a step raises: `PPC` and the latch are all that differs from the state before it (R196). -/
theorem raise_beginStep (c : FaultCause) {s : State} (hs : s.fault = none) :
    raise c (beginStep s) = { s with ppc := s.pc, fault := some ⟨c, s.pc⟩ } :=
  raise_eq c (beginStep s) hs

/-- The record that `raise` latches on a running core holds the cause it was given. -/
theorem raise_fault_cause {c : FaultCause} {s : State} {r : FaultRecord} (hs : s.fault = none)
    (h : (raise c s).fault = some r) : r.cause = c := by
  rw [raise_eq c s hs] at h
  cases h
  rfl

/-- The commit phase lets a fault of the execute phase stand (R198). -/
theorem commit_of_fault (i : Instr) (before : State) {after : State} (h : after.fault ≠ none) :
    commit i before after = after :=
  if_neg fun ⟨hnone, _⟩ => h hnone

/-- The step of an instruction that raises a fault when it is executed. -/
theorem step_of_exec_fault {s : State} {w : Word} {i : Instr} {c : FaultCause} (hs : s.fault = none)
    (hf : fetch s = .ok w) (hd : decode w = .instr i)
    (hexec : exec i (beginStep s) = .next (raise c (beginStep s))) :
    step s = .next { s with ppc := s.pc, fault := some ⟨c, s.pc⟩ } := by
  rw [step_of_decode hs hf hd hexec, commit_of_fault i _ (raise_fault_ne_none c _),
    raise_beginStep c hs]

/-- A fetch never raises `NoProgress`. -/
theorem fetch_error_ne_noProgress {s : State} {f : FaultCause} (h : fetch s = .error f) :
    f ≠ .noProgress := by
  by_cases hpc : s.pc.toNat ≤ 0xFFE
  · cases (fetch_ok s hpc).symm.trans h
  · cases (fetch_error s (Nat.lt_of_not_le hpc)).symm.trans h
    simp

/-! ### Self-targets (R106, R195) -/

/-- `pc + 2` and `pc + 4` are never `pc`, even where they wrap. -/
theorem pc_add_ne (a : Word) : a + 2 ≠ a ∧ a + 4 ≠ a := by
  constructor <;> bv_omega

/-- Instruction `i` is a jump, a call with room on the stack, or a return, and its target is the address
`pc` it is executed at. -/
def SelfTarget (i : Instr) (s : State) : Prop :=
  (∃ nnn : Addr, i = .jump nnn ∧ nnn.toNat = s.pc.toNat) ∨
  (∃ nnn : Addr, i = .call nnn ∧ nnn.toNat = s.pc.toNat ∧ s.sp.val < s.cfg.stackDepth) ∨
  (i = .ret ∧ ∃ j, j + 1 = s.sp.val ∧ s.slot j = s.pc)

/-- An instruction that completes where `pc` was, and is no suspended `wait-key`, is a self-target: every
other one moves `pc` by 2 or 4 (R24). -/
theorem selfTarget_of_unmoved {i : Instr} {s u : State} (hs : s.fault = none)
    (hexec : exec i s = .next u) (hu : u.fault = none) (hsus : suspended i s = false)
    (hpc : u.pc = s.pc) : SelfTarget i s := by
  have hleft := whereEachInstructionLeavesThePc i s u hs hexec hu
  obtain ⟨h2, h4⟩ := pc_add_ne s.pc
  rw [hpc] at hleft
  cases i
  case jump nnn => exact .inl ⟨nnn, rfl, hleft.symm⟩
  case call nnn =>
    obtain hraised | ⟨hroom, -⟩ := exec_cases hexec
    · obtain ⟨c, rfl, -⟩ := hraised
      exact absurd hu (raise_fault_ne_none c s)
    · exact .inr (.inl ⟨nnn, rfl, hleft.symm, hroom⟩)
  case ret =>
    obtain ⟨j, hj, hslot⟩ := hleft
    exact .inr (.inr ⟨rfl, j, hj, hslot.symm⟩)
  case skipEqImm | skipNeqImm | skipKeyEq | skipKeyNeq =>
    exact hleft.elim (fun h => absurd h.symm h2) fun h => absurd h.symm h4
  case waitKey x =>
    have hkeys : s.keys ≠ 0 := fun hk => (suspended_eq_false_iff _ s).mp hsus ⟨x, rfl, hk⟩
    exact absurd (hleft.trans (if_neg hkeys)).symm h2
  all_goals exact absurd hleft.symm h2

/-- A self-target completes and leaves `pc` where it was (R101 to R103). -/
theorem exec_of_selfTarget {i : Instr} {s : State} (h : SelfTarget i s) :
    ∃ u, exec i s = .next u ∧ u.fault = s.fault ∧ u.pc = s.pc ∧ suspended i s = false := by
  obtain ⟨nnn, rfl, hpc⟩ | ⟨nnn, rfl, hpc, hroom⟩ | ⟨rfl, j, hj, hslot⟩ := h
  · exact ⟨_, rfl, rfl, BitVec.eq_of_toNat_eq ((zextAddr_toNat nnn).trans hpc), rfl⟩
  · exact ⟨_, exec_call_pushes nnn hroom, rfl,
      BitVec.eq_of_toNat_eq ((zextAddr_toNat nnn).trans hpc), rfl⟩
  · exact ⟨_, exec_ret_pops hj, rfl, hslot, rfl⟩

/-! ### The statements -/

/-- Settles O12: neither the fetch, the decoder nor an instruction raises `NoProgress`, so the commit phase
did, on an instruction that completed where `pc` was. -/
theorem onlySelfTargetsRaiseNoProgress : Obligations.OnlySelfTargetsRaiseNoProgress := by
  intro s t p hs hstep ht
  obtain ⟨f, hf, rfl⟩ | ⟨w, bad, -, -, rfl⟩ | ⟨w, i, u, hf, hd, hexec, rfl⟩ := step_cases hs hstep
  · exact absurd (raise_fault_cause (s := beginStep s) hs ht).symm (fetch_error_ne_noProgress hf)
  · cases raise_fault_cause (s := beginStep s) hs ht
  · obtain ⟨hu, hsus, hpc, -⟩ | ⟨hkeep, -⟩ := commit_cases i (beginStep s) u
    · refine ⟨w, hf, ?_⟩
      obtain ⟨nnn, rfl, hnnn⟩ | ⟨nnn, rfl, hnnn⟩ | ⟨rfl, hret⟩ :=
        selfTarget_of_unmoved (s := beginStep s) hs hexec hu hsus hpc
      exacts [.inl ⟨nnn, hd, hnnn⟩, .inr (.inl ⟨nnn, hd, hnnn⟩), .inr (.inr ⟨hd, hret⟩)]
    · rw [hkeep] at ht
      obtain hlatch | ⟨c, rfl, hc, -⟩ := exec_latch hexec
      · cases (hlatch.trans hs).symm.trans ht
      · exact absurd (raise_fault_cause (s := beginStep s) hs ht).symm hc

/-- Settles O13: the self-target completes where `pc` was, and the commit phase drops what it did. -/
theorem selfTargetsRaiseNoProgress : Obligations.SelfTargetsRaiseNoProgress := by
  intro s w i hs hf hd hself
  obtain ⟨u, hexec, hu, hpc, hsus⟩ := exec_of_selfTarget (s := beginStep s) hself
  have hcommit : commit i (beginStep s) u = raise .noProgress (beginStep s) :=
    if_pos ⟨hu.trans hs, hsus, hpc⟩
  rw [step_of_decode hs hf hd hexec, hcommit, raise_beginStep _ hs]

/-- Settles O14: each phase's fault ends the step before the next phase is reached. -/
theorem faultsComeInPhaseOrder : Obligations.FaultsComeInPhaseOrder := by
  refine ⟨fun s hs hpc => ?_, fun s w hs hf hd => ?_, fun s w nnn hs hf hd hfull => ?_⟩
  · exact step_of_fetch_error hs (fetch_error s hpc)
  · rw [step_of_illegal hs hf hd, raise_beginStep _ hs]
  · exact step_of_exec_fault hs hf hd (exec_call_full (s := beginStep s) nnn hfull)

/-! ### What the host sees of the latch (R172, R190) -/

theorem ports_of_running {s : State} (h : s.fault = none) :
    s.ports = ⟨false, 0, 0, 0, none, s.soundActive⟩ := by
  simp only [State.ports, h]

theorem ports_of_latched {s : State} {r : FaultRecord} (h : s.fault = some r) :
    s.ports =
      ⟨true, faultCode r.cause, r.pc, faultInfo r.cause, faultSpace r.cause, s.soundActive⟩ := by
  simp only [State.ports, h]

/-- Settles O15: the outputs are the functions `faultCode`, `faultInfo` and `faultSpace` of the cause. -/
theorem faultPortsShowTheRecord : Obligations.FaultPortsShowTheRecord := by
  intro s
  refine ⟨fun hs => ?_, fun r hr => ?_⟩
  · rw [ports_of_running hs, State.stepResult, hs]
    exact ⟨rfl, rfl, rfl⟩
  · obtain ⟨cause, pc⟩ := r
    rw [ports_of_latched hr, State.stepResult, hr]
    refine ⟨rfl, rfl, rfl, ?_, ?_, ?_, ?_, ?_⟩
    · rintro w ⟨⟩; exact ⟨rfl, rfl⟩
    · rintro ⟨⟩; exact ⟨rfl, rfl⟩
    · rintro ⟨⟩; exact ⟨rfl, rfl⟩
    · rintro sp a ⟨⟩; exact ⟨rfl, rfl, rfl⟩
    · rintro ⟨⟩; exact ⟨rfl, rfl⟩

/-! ### Runs that leave memory (R54, R193) -/

/-- A run of addresses from `I` that leaves memory fails its check, and the fault, raised, changes the latch
alone. -/
theorem checkSpan_faults {s : State} {m : Nat} (hs : s.fault = none) (hm : m ≠ 0)
    (hout : 0x1000 < s.i.toNat + m) :
    ∃ f, checkSpan s.i.toNat m = some f ∧ raise f s = { s with
      fault := some ⟨.outOfBounds .mem (BitVec.ofNat 16 (max s.i.toNat 0x1000)), s.ppc⟩ } :=
  ⟨_, checkSpan_eq_some _ m hm hout, raise_eq _ s hs⟩

/-- Settles O41: each of the four forms checks its whole run of addresses before it changes anything. -/
theorem outOfRangeBlocksChangeNothing : Obligations.OutOfRangeBlocksChangeNothing := by
  refine fun s x y n hs => ⟨fun hout => ?_, fun hout => ?_, fun hout => ?_, fun hn hout => ?_⟩
  · obtain ⟨f, hspan, hraise⟩ := checkSpan_faults (m := 3) hs (by decide) (by omega)
    simp only [exec, execStoreBcd, hspan, hraise]
  · obtain ⟨f, hspan, hraise⟩ :=
      checkSpan_faults (m := blockLength x) hs (Nat.succ_ne_zero _) (Nat.succ_lt_succ hout)
    simp only [exec, execStoreBlock, hspan, hraise]
  · obtain ⟨f, hspan, hraise⟩ :=
      checkSpan_faults (m := blockLength x) hs (Nat.succ_ne_zero _) (Nat.succ_lt_succ hout)
    simp only [exec, execLoadBlock, hspan, hraise]
  · have hrows : n.toNat ≠ 0 := fun h0 => hn (BitVec.eq_of_toNat_eq h0)
    obtain ⟨f, hspan, hraise⟩ := checkSpan_faults hs hrows (by omega)
    simp only [exec, execDraw, hspan, hraise]

end Sys2Proof.Machine

/-! PROOFS. Four statements of several chapters: the canonical form of `M` (10_state.md), the words of the
opcode map (30_encoding.md), the key index above 15 (44_keyboard.md) and the faulting step (60_exceptions.md). -/
namespace Sys2Proof.Machine

/-! ### The canonical form of memory (R30, log entry 4)

A cell of the canonical form is the only one of its address and never holds the reset contents, so its
address can be told from the reads alone. -/

section Canonical

variable {font : List Byte} {lo lo' : Nat} {c : Host.Cell} {rest m m' : Memory}

theorem Memory.read_cons_same : Memory.read font (c :: rest) c.1 = c.2 := if_pos rfl

theorem Memory.read_cons_other {a : Nat} (h : c.1 ≠ a) :
    Memory.read font (c :: rest) a = Memory.read font rest a := if_neg h

/-- Below the addresses of a canonical form every read is the reset contents. -/
theorem Memory.read_of_lt_wfFrom (hm : Memory.wfFrom font lo m = true) {a : Nat} (ha : a < lo) :
    m.read font a = Memory.background font a := by
  induction m generalizing lo with
  | nil => rfl
  | cons c rest ih =>
    obtain ⟨hlo, -, -, hrest⟩ := (Memory.wfFrom_cons ..).mp hm
    rw [Memory.read_cons_other (by omega), ih hrest (by omega)]

/-- The head of a canonical form reads unlike the reset contents, so another canonical form with the same
reads cannot begin above that head. -/
theorem Memory.le_head_of_reads (hm : Memory.wfFrom font lo (c :: rest) = true)
    (hm' : Memory.wfFrom font lo' m' = true)
    (h : ∀ a, Memory.read font (c :: rest) a = m'.read font a) : lo' ≤ c.1 := by
  obtain ⟨-, -, hne, -⟩ := (Memory.wfFrom_cons ..).mp hm
  by_contra hlt
  apply hne
  rw [← Memory.read_of_lt_wfFrom hm' (Nat.lt_of_not_le hlt), ← h, Memory.read_cons_same]

/-- A canonical form starts at the address of its head. -/
theorem Memory.wfFrom_head (hm : Memory.wfFrom font lo (c :: rest) = true) :
    Memory.wfFrom font c.1 (c :: rest) = true := by
  rw [Memory.wfFrom_cons] at hm ⊢
  exact ⟨Nat.le_refl _, hm.2⟩

/-- Canonical forms with the same reads have the same head, and with the head taken off the same reads
again. -/
theorem Memory.eq_of_reads (hm : Memory.wfFrom font lo m = true)
    (hm' : Memory.wfFrom font lo' m' = true) (h : ∀ a, m.read font a = m'.read font a) : m = m' := by
  induction m generalizing lo lo' m' with
  | nil =>
    cases m' with
    | nil => rfl
    | cons c' rest' =>
      have hnil : Memory.wfFrom font (c'.1 + 1) [] = true := rfl
      exact absurd (Memory.le_head_of_reads hm' hnil fun a => (h a).symm) (Nat.not_succ_le_self _)
  | cons c rest ih =>
    cases m' with
    | nil =>
      have hnil : Memory.wfFrom font (c.1 + 1) [] = true := rfl
      exact absurd (Memory.le_head_of_reads hm hnil h) (Nat.not_succ_le_self _)
    | cons c' rest' =>
      have haddr : c.1 = c'.1 := Nat.le_antisymm
        (Memory.le_head_of_reads hm' (Memory.wfFrom_head hm) fun a => (h a).symm)
        (Memory.le_head_of_reads hm (Memory.wfFrom_head hm') h)
      have hbyte : c.2 = c'.2 := by
        have hread := h c.1
        rwa [Memory.read_cons_same, haddr, Memory.read_cons_same] at hread
      obtain rfl : c = c' := Prod.ext haddr hbyte
      obtain ⟨-, -, -, hrest⟩ := (Memory.wfFrom_cons ..).mp hm
      obtain ⟨-, -, -, hrest'⟩ := (Memory.wfFrom_cons ..).mp hm'
      rw [ih hrest hrest' fun a => ?_]
      by_cases ha : c.1 = a
      · have hlt : a < c.1 + 1 := ha ▸ Nat.lt_succ_self _
        rw [Memory.read_of_lt_wfFrom hrest hlt, Memory.read_of_lt_wfFrom hrest' hlt]
      · have hread := h a
        rwa [Memory.read_cons_other ha, Memory.read_cons_other ha] at hread

end Canonical

/-! ### The statements -/

/-- Settles O9: a step of a running core raises a fault on the state it began with, or an instruction
completes, and then no fault is latched. -/
theorem faultingStepIsPrecise : Obligations.FaultingStepIsPrecise := by
  intro s t r hs hstep ht
  obtain ⟨c, rfl, -⟩ | ⟨_, _, -, -, -, hcomp, -⟩ := step_raises_or_completes hs hstep
  · rw [raise_beginStep c hs] at ht ⊢
    cases ht
    exact ⟨rfl, rfl⟩
  · cases ((completed_fault hcomp).trans hs).symm.trans ht

/-- Settles O22: `Memory.wf` is `Memory.wfFrom` from address 0. -/
theorem canonicalMemoryIsItsReads : Obligations.CanonicalMemoryIsItsReads :=
  fun _ _ _ hm hm' h => Memory.eq_of_reads hm hm' h

/-- Settles O1: the decoder is run on each of the thirteen words. -/
theorem decodeReadsTheSpecsWords : Obligations.DecodeReadsTheSpecsWords := by
  unfold Obligations.DecodeReadsTheSpecsWords
  decide

/-- Settles O49: both skips look the key up first and raise the fault `keyIndex` answers. -/
theorem keyIndexAboveFifteenFaults : Obligations.KeyIndexAboveFifteenFaults := by
  intro s x hs hx
  obtain ⟨hle, -⟩ | ⟨-, a, ha, hkey⟩ := keyIndex_cases x s
  · exact absurd hx (Nat.not_lt.mpr hle)
  · refine ⟨a, ha, ?_, ?_⟩
    · simp only [exec, execSkipKeyEq, hkey, raise_eq _ s hs]
    · simp only [exec, execSkipKeyNeq, hkey, raise_eq _ s hs]

end Sys2Proof.Machine
